-- ==== Sys2Proof/Word.lean ====
section
/-! DEFINITION. The word and the byte of the core (00_scope.md R4, R5, R6). -/

namespace Sys2Proof

/-- A word: "a 16-bit cell" with no type tag (R4, R6). The unsigned view `u(w)` is `w.toNat`, the signed
(two's complement) view `s(w)` is `w.toInt`. -/
abbrev Word := BitVec 16

/-- A byte of the memory buffer or of an instruction (R4). -/
abbrev Byte := BitVec 8

/-- `trunc16(n)` of R6: the 16-bit pattern whose unsigned value is `n mod 65536`, for any integer `n`. -/
abbrev trunc16 (n : Int) : Word := BitVec.ofInt 16 n

end Sys2Proof
end

