-- ==== Sys2Proof/Machine/Alu.lean ====
section
/-! DEFINITION. The integer and bitwise functions of the ALU (10_state.md R27, 41_arithmetic.md R81 to R89, R99 to R102). Each
is a pure function of its inputs: the operands are read as integers, the exact result is computed and narrowed at the
end. -/

namespace Sys2Proof.Machine

/-- ADD: `trunc16(u(a) + u(b))` (R81). -/
def aluAdd (a b : Word) : Word := trunc16 ((a.toNat : Int) + b.toNat)

/-- SUB: `trunc16(u(a) - u(b))` (R82). -/
def aluSub (a b : Word) : Word := trunc16 ((a.toNat : Int) - b.toNat)

/-- MUL: `trunc16(u(a) * u(b))` (R83). -/
def aluMul (a b : Word) : Word := trunc16 ((a.toNat : Int) * b.toNat)

/-- DIV: `floor(u(a) / u(b))`; `none` is the divide-by-zero indication (R84). -/
def aluDiv (a b : Word) : Option Word :=
  if b.toNat = 0 then none else some (trunc16 ((a.toNat / b.toNat : Nat) : Int))

/-- ADDS: `trunc16(s(a) + s(b))` (R85). -/
def aluAdds (a b : Word) : Word := trunc16 (a.toInt + b.toInt)

/-- SUBS: `trunc16(s(a) - s(b))` (R86). -/
def aluSubs (a b : Word) : Word := trunc16 (a.toInt - b.toInt)

/-- MULS: `trunc16(s(a) * s(b))` (R87). -/
def aluMuls (a b : Word) : Word := trunc16 (a.toInt * b.toInt)

/-- DIVS: the quotient of the signed views rounded toward zero, `trunc16(q)`; `none` is the divide-by-zero indication
(R88). -/
def aluDivs (a b : Word) : Option Word :=
  if b.toInt = 0 then none else some (trunc16 (Int.tdiv a.toInt b.toInt))

/-- OR, bit by bit (R99). -/
def aluOr (a b : Word) : Word := a ||| b

/-- XOR, bit by bit (R100). -/
def aluXor (a b : Word) : Word := a ^^^ b

/-- AND, bit by bit (R101). -/
def aluAnd (a b : Word) : Word := a &&& b

/-- NOT: `a XOR 0xFFFF` (R102). -/
def aluNot (a : Word) : Word := a ^^^ 0xFFFF

end Sys2Proof.Machine
end

