-- ==== Sys2Proof/Syntax.lean ====
section
/-! DEFINITION. Registers, shape classes and the 39 instructions (10_state.md R11, 30_encoding.md R52, R57). -/

namespace Sys2Proof

/-- The twelve registers at their "fixed indices" 0 to 11 (R10, R11): `x0` to `x7` are `$REG0` to `$REG7`, `pc` is
index 8 (`$RPC`), `sp` index 9 (`$RSP`), `bp` index 10 (`$RBP`), `flags` index 11 (no assembler name). A register id of
12 to 255 names none of them (R12, R55). -/
inductive Reg
  | x0 | x1 | x2 | x3 | x4 | x5 | x6 | x7
  | pc | sp | bp | flags
deriving DecidableEq, Repr

/-- The seven operand-shape classes (R52). -/
inductive Shape
  | none | imm | reg | regImm | regReg | regMem | memReg
deriving DecidableEq, Repr

/-- The 39 instructions of R57, one constructor per row of spec/opcode_table.json, in the table's order. Operands are
in encoding order: `rd`, `rs`, `r` are registers, `imm` and `addr` are 16-bit words (R7). -/
inductive Instr
  -- class NONE
  | dup
  | cmp
  | ret
  | halt
  | noop
  -- class IMM
  | pushImm (imm : Word)
  | jump (addr : Word)
  | jumpEq (addr : Word)
  | jumpNeq (addr : Word)
  | jumpGt (addr : Word)
  | jumpLt (addr : Word)
  | jumpGeq (addr : Word)
  | jumpLeq (addr : Word)
  | call (addr : Word)
  -- class REG
  | not (r : Reg)
  | push (r : Reg)
  | pop (r : Reg)
  -- class REG_IMM
  | movRegImm (r : Reg) (imm : Word)
  -- class REG_REG
  | add (rd rs : Reg)
  | sub (rd rs : Reg)
  | mul (rd rs : Reg)
  | div (rd rs : Reg)
  | adds (rd rs : Reg)
  | subs (rd rs : Reg)
  | muls (rd rs : Reg)
  | divs (rd rs : Reg)
  | addf (rd rs : Reg)
  | subf (rd rs : Reg)
  | mulf (rd rs : Reg)
  | divf (rd rs : Reg)
  | or (rd rs : Reg)
  | xor (rd rs : Reg)
  | and (rd rs : Reg)
  | movRegReg (rd rs : Reg)
  | cmpRegReg (rd rs : Reg)
  -- class REG_MEM
  | movRegMem (r : Reg) (addr : Word)
  | cmpRegMem (r : Reg) (addr : Word)
  -- class MEM_REG
  | movMemReg (addr : Word) (r : Reg)
  | cmpMemReg (addr : Word) (r : Reg)
deriving DecidableEq, Repr

end Sys2Proof
end

