-- ==== Sys2Proof/Config.lean ====
section
/-! DEFINITION. The configuration that reset fixes for the machine's lifetime, and the one free value (00_scope.md R4,
41_arithmetic.md R94). -/

namespace Sys2Proof

/-- Which operand of a compare between a register and a memory word is the left comparand (R133, R134). -/
inductive CmpSide
  | register
  | memory
deriving DecidableEq, Repr

/-- The implementation parameters of R4. They are plain data carried in the state, set by reset and changed by no
step ("Fixed for the VM's lifetime", R180), so a statement over every state holds for every setting (log 3). -/
structure Config where
  /-- `STATIC_SIZE`: bytes of static data at the start of the program segment (R188). -/
  staticSize : Nat
  /-- `PROGRAM_SIZE`: bytes of the program segment, static data then code (R188). -/
  programSize : Nat
  /-- `STACK_SIZE`: bytes of the stack segment (R191). -/
  stackSize : Nat
  /-- `MEM_SIZE`: bytes of the whole memory buffer (R191). -/
  memSize : Nat
  /-- `PROGRAM_READONLY`: whether the program segment refuses writes (R37). -/
  programReadonly : Bool
  /-- `CMP_MEM_ORDER.reg_mem_left`: the left comparand of CMP_REG_MEM (R133, decision D19). -/
  regMemLeft : CmpSide
  /-- `CMP_MEM_ORDER.mem_reg_left`: the left comparand of CMP_MEM_REG (R134, decision D19). -/
  memRegLeft : CmpSide
  /-- `LINK_SP`: the general register CALL saves SP in (R148, decision D21). -/
  linkSp : Reg
  /-- `LINK_BP`: the general register CALL saves BP in (R148, decision D21). -/
  linkBp : Reg
  /-- `LINK_RA`: the general register CALL saves the return address in (R148, decision D21). -/
  linkRa : Reg
deriving DecidableEq, Repr

/-- The configuration of the empty image under the sizes R191 suggests (`MEM_SIZE = 65536`, `STACK_SIZE = 1024`), with a
writable program segment, the default `CMP_MEM_ORDER` and the spec's link registers. DESIGN CHOICE, unsafe: log 2. -/
def Config.default : Config where
  staticSize := 0
  programSize := 0
  stackSize := 1024
  memSize := 65536
  programReadonly := false
  regMemLeft := .register
  memRegLeft := .memory
  linkSp := .x5
  linkBp := .x6
  linkRa := .x7

/-- The four half-precision operations, as names for the argument of the free NaN pattern. -/
inductive FpOp
  | addf
  | subf
  | mulf
  | divf
deriving DecidableEq, Repr

/-- The free value behind `FP_NAN`: which NaN pattern an operation returns is implementation-defined (R94, U6), "a
configuration function of the operands". It has no body, so nothing can be proved of it. Only its NaN patterns are used
(`Machine.fpNan` keeps the result a NaN). Log 6. -/
opaque Config.fpNanFree : FpOp → Word → Word → Word

end Sys2Proof
end

