-- ==== Sys2Proof/Machine/Float16.lean ====
section
/-! DEFINITION. Half-precision arithmetic: the binary16 view of a word, the one rounding, and the four operations
(41_arithmetic.md R90 to R98). Exact values are natural numbers: a finite magnitude is counted in units of 2^-24, of
which every finite value is an integer multiple (R92). -/

namespace Sys2Proof.Machine

/-- The half-precision view `h(w)` of a word (R92): a NaN, an infinity of a sign, or a finite value
`(-1)^neg * mag * 2^-24` (a zero keeps its sign). -/
inductive Half
  | nan
  | inf (neg : Bool)
  | fin (neg : Bool) (mag : Nat)
deriving DecidableEq, Repr

/-- `sgn`: bit 15 (R91). -/
def halfSign (w : Word) : Bool := w.getLsbD 15

/-- `exp`: bits 14:10, biased by 15 (R91). -/
def halfExp (w : Word) : Nat := w.toNat / 1024 % 32

/-- `frac`: bits 9:0 (R91). -/
def halfFrac (w : Word) : Nat := w.toNat % 1024

/-- The word `sgn ++ exp ++ frac` (R91). -/
def packHalf (sgn : Bool) (exp frac : Nat) : Word :=
  BitVec.ofNat 16 ((if sgn then 32768 else 0) + exp % 32 * 1024 + frac % 1024)

/-- The view of a word (R92): a normal value is `(1024 + frac) * 2^(exp - 25)`, that is `(1024 + frac) * 2^(exp - 1)` units
of 2^-24, a subnormal `frac` units. -/
def halfView (w : Word) : Half :=
  if halfExp w = 31 then
    if halfFrac w = 0 then .inf (halfSign w) else .nan
  else if halfExp w = 0 then .fin (halfSign w) (halfFrac w)
  else .fin (halfSign w) ((1024 + halfFrac w) * 2 ^ (halfExp w - 1))

/-- A NaN pattern: exponent field 31 and a non-zero fraction (R91, R92). -/
def isNaN (w : Word) : Bool := halfExp w = 31 && halfFrac w != 0

/-- The zero of a sign (R91). -/
def halfZero (neg : Bool) : Word := packHalf neg 0 0

/-- The infinity of a sign (R91). -/
def halfInf (neg : Bool) : Word := packHalf neg 31 0

/-- `n / d` rounded to the nearest integer, a tie going to the even one (R93), for `d` not 0. -/
def roundHalfEven (n d : Nat) : Nat :=
  if 2 * (n % d) < d then n / d
  else if d < 2 * (n % d) then n / d + 1
  else n / d + n / d % 2

/-- `E + 14` of R93 for the magnitude `num / den`: the binade `max(floor(log2 m), -14)`, counted from the subnormal
one. -/
def binade (num den : Nat) : Nat := Nat.log2 (num * 2 ^ 14 / den)

/-- `round16(v)` of R93 for `v = (-1)^neg * num / den`, `num` and `den` not 0. With `k = E + 14` the spacing is
`q = 2^(E - 10) = 2^(k - 24)`, so `m / q = num * 2^24 / (den * 2^k)`, and the biased exponent `E + 15` is `k + 1`. -/
def round16 (neg : Bool) (num den : Nat) : Word :=
  if 65520 * den ≤ num then packHalf neg 31 0
  else
    let k := binade num den
    let n := roundHalfEven (num * 2 ^ 24) (den * 2 ^ k)
    if n = 0 then packHalf neg 0 0
    else if n = 2048 then packHalf neg (k + 2) 0
    else if n < 1024 then packHalf neg 0 n
    else packHalf neg (k + 1) (n - 1024)

/-- A finite value as a signed count of units of 2^-24. -/
def halfUnits (neg : Bool) (mag : Nat) : Int := if neg then -(mag : Int) else mag

/-- ADDF (R95); `none` is a NaN result. -/
def halfAdd (a b : Word) : Option Word :=
  match halfView a, halfView b with
  | .nan, _ => none
  | .inf _, .nan => none
  | .fin _ _, .nan => none
  | .inf s, .inf t => if s = t then some (halfInf s) else none
  | .inf s, .fin _ _ => some (halfInf s)
  | .fin _ _, .inf t => some (halfInf t)
  | .fin s m, .fin t n =>
    if m = 0 ∧ n = 0 then some (halfZero (s && t))
    else
      let v := halfUnits s m + halfUnits t n
      if v = 0 then some (halfZero false) else some (round16 (decide (v < 0)) v.natAbs (2 ^ 24))

/-- SUBF (R96): ADDF of `a` and `b` with bit 15 inverted; a NaN `b` stays a NaN; `none` is a NaN result. -/
def halfSub (a b : Word) : Option Word := halfAdd a (b ^^^ 0x8000)

/-- MULF (R97); `none` is a NaN result. -/
def halfMul (a b : Word) : Option Word :=
  match halfView a, halfView b with
  | .nan, _ => none
  | .inf _, .nan => none
  | .fin _ _, .nan => none
  | .inf s, .inf t => some (halfInf (s ^^ t))
  | .inf s, .fin t n => if n = 0 then none else some (halfInf (s ^^ t))
  | .fin s m, .inf t => if m = 0 then none else some (halfInf (s ^^ t))
  | .fin s m, .fin t n =>
    if m = 0 ∨ n = 0 then some (halfZero (s ^^ t)) else some (round16 (s ^^ t) (m * n) (2 ^ 48))

/-- DIVF (R98); `none` is a NaN result. -/
def halfDiv (a b : Word) : Option Word :=
  match halfView a, halfView b with
  | .nan, _ => none
  | .inf _, .nan => none
  | .fin _ _, .nan => none
  | .inf _, .inf _ => none
  | .inf s, .fin t _ => some (halfInf (s ^^ t))
  | .fin s _, .inf t => some (halfZero (s ^^ t))
  | .fin s m, .fin t n =>
    if n = 0 then
      if m = 0 then none else some (halfInf (s ^^ t))
    else if m = 0 then some (halfZero (s ^^ t))
    else some (round16 (s ^^ t) m n)

/-- `FP_NAN`, the NaN pattern of an operation on its operands: the free value where that is a NaN, else the recommended
0x7E00, so every NaN pattern is possible and nothing else is (R94, U6, log 6). -/
def fpNan (op : FpOp) (a b : Word) : Word :=
  if isNaN (Config.fpNanFree op a b) then Config.fpNanFree op a b else 0x7E00

/-- The result word of an operation: its value, or `FP_NAN` where the result is a NaN (R94). -/
def fpResult (op : FpOp) (f : Word → Word → Option Word) (a b : Word) : Word :=
  match f a b with
  | some v => v
  | none => fpNan op a b

/-- ADDF's result word (R95). -/
def aluAddf (a b : Word) : Word := fpResult .addf halfAdd a b

/-- SUBF's result word (R96). -/
def aluSubf (a b : Word) : Word := fpResult .subf halfSub a b

/-- MULF's result word (R97). -/
def aluMulf (a b : Word) : Word := fpResult .mulf halfMul a b

/-- DIVF's result word (R98). -/
def aluDivf (a b : Word) : Word := fpResult .divf halfDiv a b

end Sys2Proof.Machine
end

