-- ==== Sys2Proof/Decode.lean ====
section
/-! DEFINITION. The instruction decoder and the encoder (30_encoding.md R50 to R60, 10_state.md R26). -/

namespace Sys2Proof

/-! ### Bytes and words -/

/-- The word whose low byte is `lo` and high byte `hi`: `byte_high ++ byte_low` (R56, R38). -/
def leWord (lo hi : Byte) : Word := hi ++ lo

/-- Bits 7:0 of a word, the byte at the lower address (R38, R39). -/
def loByte (w : Word) : Byte := w.extractLsb' 0 8

/-- Bits 15:8 of a word, the byte at the higher address (R38, R39). -/
def hiByte (w : Word) : Byte := w.extractLsb' 8 8

/-! ### The opcode byte -/

/-- `class`: bits 7:5 of the opcode byte (R51). -/
def opcodeClass (op : Byte) : Nat := op.toNat / 32

/-- `index`: bits 4:0 of the opcode byte (R51). -/
def opcodeIndex (op : Byte) : Nat := op.toNat % 32

/-- The shape class with a given 3-bit code; code 7 has none (R52). -/
def Shape.ofClass : Nat → Option Shape
  | 0 => some .none
  | 1 => some .imm
  | 2 => some .reg
  | 3 => some .regImm
  | 4 => some .regReg
  | 5 => some .regMem
  | 6 => some .memReg
  | _ => Option.none

/-- The size in bytes of an instruction of a shape class, opcode byte included (R52, R53). -/
def Shape.size : Shape → Nat
  | .none => 1
  | .imm => 3
  | .reg => 2
  | .regImm => 4
  | .regReg => 3
  | .regMem => 4
  | .memReg => 4

/-- The shape class of each instruction (R57). -/
def Instr.shape : Instr → Shape
  | .dup | .cmp | .ret | .halt | .noop => .none
  | .pushImm _ | .jump _ | .jumpEq _ | .jumpNeq _ | .jumpGt _ | .jumpLt _ | .jumpGeq _ | .jumpLeq _ | .call _ => .imm
  | .not _ | .push _ | .pop _ => .reg
  | .movRegImm _ _ => .regImm
  | .add _ _ | .sub _ _ | .mul _ _ | .div _ _ | .adds _ _ | .subs _ _ | .muls _ _ | .divs _ _ => .regReg
  | .addf _ _ | .subf _ _ | .mulf _ _ | .divf _ _ | .or _ _ | .xor _ _ | .and _ _ => .regReg
  | .movRegReg _ _ | .cmpRegReg _ _ => .regReg
  | .movRegMem _ _ | .cmpRegMem _ _ => .regMem
  | .movMemReg _ _ | .cmpMemReg _ _ => .memReg

/-- The length of an instruction in bytes, 1 to 4 (R50, R53). -/
def Instr.size (i : Instr) : Nat := i.shape.size

/-- The nine control-flow opcodes, exempt from the automatic advance (R14). -/
def Instr.isControlFlow : Instr → Bool
  | .jump _ | .jumpEq _ | .jumpNeq _ | .jumpGt _ | .jumpLt _ | .jumpGeq _ | .jumpLeq _ | .call _ | .ret => true
  | .dup | .cmp | .halt | .noop | .pushImm _ | .not _ | .push _ | .pop _ | .movRegImm _ _ => false
  | .add _ _ | .sub _ _ | .mul _ _ | .div _ _ | .adds _ _ | .subs _ _ | .muls _ _ | .divs _ _ => false
  | .addf _ _ | .subf _ _ | .mulf _ _ | .divf _ _ | .or _ _ | .xor _ _ | .and _ _ => false
  | .movRegReg _ _ | .cmpRegReg _ _ | .movRegMem _ _ | .cmpRegMem _ _ | .movMemReg _ _ | .cmpMemReg _ _ => false

/-! ### Register ids -/

/-- The register-id byte of a register: its index (R11, R55). -/
def Reg.id : Reg → Byte
  | .x0 => 0
  | .x1 => 1
  | .x2 => 2
  | .x3 => 3
  | .x4 => 4
  | .x5 => 5
  | .x6 => 6
  | .x7 => 7
  | .pc => 8
  | .sp => 9
  | .bp => 10
  | .flags => 11

/-- All twelve registers, in index order (R11). -/
def Reg.all : List Reg := [.x0, .x1, .x2, .x3, .x4, .x5, .x6, .x7, .pc, .sp, .bp, .flags]

/-- The register a register-id byte selects: 0 to 11 select that index, 12 to 255 select nothing (R12, R55). -/
def Reg.ofId (b : Byte) : Option Reg := Reg.all[b.toNat]?

/-! ### The opcode map -/

/-- How the decoder makes an instruction from the operand fields of its shape class (R54). -/
inductive Form
  | none (i : Instr)
  | imm (f : Word → Instr)
  | reg (f : Reg → Instr)
  | regImm (f : Reg → Word → Instr)
  | regReg (f : Reg → Reg → Instr)
  | regMem (f : Reg → Word → Instr)
  | memReg (f : Word → Reg → Instr)

/-- The shape class of a form. -/
def Form.shape : Form → Shape
  | .none _ => .none
  | .imm _ => .imm
  | .reg _ => .reg
  | .regImm _ => .regImm
  | .regReg _ => .regReg
  | .regMem _ => .regMem
  | .memReg _ => .memReg

/-- The opcode map of R57: the one table of the 39 legal opcode bytes. The numbers are the spec's own (R58, log 13). -/
def opcodeTable : List (Byte × Form) :=
  [(0x00, .none .dup), (0x01, .none .cmp), (0x02, .none .ret), (0x03, .none .halt), (0x04, .none .noop)] ++
  [(0x20, .imm .pushImm), (0x21, .imm .jump), (0x22, .imm .jumpEq), (0x23, .imm .jumpNeq), (0x24, .imm .jumpGt),
   (0x25, .imm .jumpLt), (0x26, .imm .jumpGeq), (0x27, .imm .jumpLeq), (0x28, .imm .call)] ++
  [(0x40, .reg .not), (0x41, .reg .push), (0x42, .reg .pop)] ++
  [(0x60, .regImm .movRegImm)] ++
  [(0x80, .regReg .add), (0x81, .regReg .sub), (0x82, .regReg .mul), (0x83, .regReg .div), (0x84, .regReg .adds),
   (0x85, .regReg .subs), (0x86, .regReg .muls), (0x87, .regReg .divs), (0x88, .regReg .addf), (0x89, .regReg .subf),
   (0x8A, .regReg .mulf), (0x8B, .regReg .divf), (0x8C, .regReg .or), (0x8D, .regReg .xor), (0x8E, .regReg .and),
   (0x8F, .regReg .movRegReg), (0x90, .regReg .cmpRegReg)] ++
  [(0xA0, .regMem .movRegMem), (0xA1, .regMem .cmpRegMem)] ++
  [(0xC0, .memReg .movMemReg), (0xC1, .memReg .cmpMemReg)]

/-- The form of a legal opcode byte; `none` for the 217 illegal ones (R57, R59). -/
def opcodeForm (op : Byte) : Option Form := opcodeTable.lookup op

/-- `legal(op)` of R26. -/
def legalOpcode (op : Byte) : Bool := (opcodeForm op).isSome

/-! ### The decoder -/

/-- Why the decoder refuses a byte string. -/
inductive DecodeError
  /-- The first byte is none of the 39 opcode bytes (R59). -/
  | illegalOpcode (op : Byte)
  /-- The byte string ends before the instruction does (R74). -/
  | missingBytes
  /-- A register-id field holds 12 to 255 (R55). -/
  | illegalRegister (id : Byte)
deriving DecidableEq, Repr

/-- The check of one register-id field (R55, R75). -/
def decodeReg (b : Byte) : Except DecodeError Reg :=
  match Reg.ofId b with
  | some r => .ok r
  | Option.none => .error (.illegalRegister b)

/-- Cut the operand fields of a form from the bytes after the opcode byte (R54), all present first (R74), then check
the register ids, `rd` before `rs` (R75, R168). -/
def Form.decode : Form → List Byte → Except DecodeError Instr
  | .none i, _ => .ok i
  | .imm f, lo :: hi :: _ => .ok (f (leWord lo hi))
  | .reg f, b :: _ =>
    match decodeReg b with
    | .ok r => .ok (f r)
    | .error e => .error e
  | .regImm f, b :: lo :: hi :: _ =>
    match decodeReg b with
    | .ok r => .ok (f r (leWord lo hi))
    | .error e => .error e
  | .regReg f, d :: b :: _ =>
    match decodeReg d with
    | .error e => .error e
    | .ok rd =>
      match decodeReg b with
      | .ok rs => .ok (f rd rs)
      | .error e => .error e
  | .regMem f, b :: lo :: hi :: _ =>
    match decodeReg b with
    | .ok r => .ok (f r (leWord lo hi))
    | .error e => .error e
  | .memReg f, lo :: hi :: b :: _ =>
    match decodeReg b with
    | .ok r => .ok (f (leWord lo hi) r)
    | .error e => .error e
  | _, _ => .error .missingBytes

/-- The decoder (R26, R73 to R75): the instruction whose bytes start a byte string, lowest address first. Bytes after the
instruction are not looked at. -/
def decode : List Byte → Except DecodeError Instr
  | [] => .error .missingBytes
  | op :: rest =>
    match opcodeForm op with
    | some form => form.decode rest
    | Option.none => .error (.illegalOpcode op)

/-! ### The encoder -/

/-- Class `IMM` (R54): opcode byte, low byte, high byte. -/
def encodeImm (op : Byte) (w : Word) : List Byte := [op, loByte w, hiByte w]

/-- Classes `REG_IMM` and `REG_MEM` (R54): opcode byte, register id, low byte, high byte. -/
def encodeRegWord (op : Byte) (r : Reg) (w : Word) : List Byte := [op, r.id, loByte w, hiByte w]

/-- Class `REG_REG` (R54): opcode byte, `rd`, `rs`. -/
def encodeRegReg (op : Byte) (rd rs : Reg) : List Byte := [op, rd.id, rs.id]

/-- Class `MEM_REG` (R54): opcode byte, low byte, high byte, register id. -/
def encodeMemReg (op : Byte) (w : Word) (r : Reg) : List Byte := [op, loByte w, hiByte w, r.id]

/-- The bytes of an instruction, lowest address first (R39, R54, R57). -/
def encode : Instr → List Byte
  | .dup => [0x00]
  | .cmp => [0x01]
  | .ret => [0x02]
  | .halt => [0x03]
  | .noop => [0x04]
  | .pushImm w => encodeImm 0x20 w
  | .jump a => encodeImm 0x21 a
  | .jumpEq a => encodeImm 0x22 a
  | .jumpNeq a => encodeImm 0x23 a
  | .jumpGt a => encodeImm 0x24 a
  | .jumpLt a => encodeImm 0x25 a
  | .jumpGeq a => encodeImm 0x26 a
  | .jumpLeq a => encodeImm 0x27 a
  | .call a => encodeImm 0x28 a
  | .not r => [0x40, r.id]
  | .push r => [0x41, r.id]
  | .pop r => [0x42, r.id]
  | .movRegImm r w => encodeRegWord 0x60 r w
  | .add d b => encodeRegReg 0x80 d b
  | .sub d b => encodeRegReg 0x81 d b
  | .mul d b => encodeRegReg 0x82 d b
  | .div d b => encodeRegReg 0x83 d b
  | .adds d b => encodeRegReg 0x84 d b
  | .subs d b => encodeRegReg 0x85 d b
  | .muls d b => encodeRegReg 0x86 d b
  | .divs d b => encodeRegReg 0x87 d b
  | .addf d b => encodeRegReg 0x88 d b
  | .subf d b => encodeRegReg 0x89 d b
  | .mulf d b => encodeRegReg 0x8A d b
  | .divf d b => encodeRegReg 0x8B d b
  | .or d b => encodeRegReg 0x8C d b
  | .xor d b => encodeRegReg 0x8D d b
  | .and d b => encodeRegReg 0x8E d b
  | .movRegReg d b => encodeRegReg 0x8F d b
  | .cmpRegReg d b => encodeRegReg 0x90 d b
  | .movRegMem r a => encodeRegWord 0xA0 r a
  | .cmpRegMem r a => encodeRegWord 0xA1 r a
  | .movMemReg a r => encodeMemReg 0xC0 a r
  | .cmpMemReg a r => encodeMemReg 0xC1 a r

/-! ### Words of the opcode table -/

/-- The four bytes, lowest address first, of an instruction whose first `nbits` bits are `w` (bit 0 the least
significant bit of the first byte) and whose later bits are 0. -/
def tableBytes (nbits w : Nat) : List Byte :=
  let v := w % 2 ^ nbits
  [BitVec.ofNat 8 v, BitVec.ofNat 8 (v / 2 ^ 8), BitVec.ofNat 8 (v / 2 ^ 16), BitVec.ofNat 8 (v / 2 ^ 24)]

/-- The instruction the decoder reads from a word of the opcode table, `none` where it refuses. -/
def decodeTableWord (nbits w : Nat) : Option Instr := (decode (tableBytes nbits w)).toOption

end Sys2Proof
end

