-- ==== Sys2Proof/Machine/State.lean ====
section
/-! DEFINITION. The state of the core, the reasons a step can stop, and reset (10_state.md, 70_reset_and_hazards.md R181 to
R183). -/

namespace Sys2Proof.Machine

/-- The register file: "12 words, fixed indices" (R10, R11). Index 8 is `pc`, 9 `sp`, 10 `bp`, 11 `flags`. -/
structure RegFile where
  x0 : Word
  x1 : Word
  x2 : Word
  x3 : Word
  x4 : Word
  x5 : Word
  x6 : Word
  x7 : Word
  pc : Word
  sp : Word
  bp : Word
  flags : Word
deriving DecidableEq, Repr

/-- The five fatal errors with the information each reports to the host (60_exceptions.md R160). -/
inductive Cause
  /-- PC outside the executable region; the PC (R161). -/
  | outOfBoundsExecution (pc : Word)
  /-- A byte that is no opcode; the byte and the PC (R162). -/
  | illegalOpcode (op : Byte) (pc : Word)
  /-- A register-id field of 12 to 255; the field and the PC (R163). -/
  | illegalRegister (id : Byte) (pc : Word)
  /-- DIV or DIVS with a zero divisor; the PC (R164). -/
  | divideByZero (pc : Word)
  /-- An access that reaches beyond the buffer; its address (R165). -/
  | outOfBoundsAccess (addr : Word)
deriving DecidableEq, Repr

/-- The engine state `STATE` (R22): `Running`, `Halted` and `Faulted(cause)`; the last two are terminal. -/
inductive Engine
  | running
  | halted
  | faulted (cause : Cause)
deriving DecidableEq, Repr

/-- The memory buffer (R30) as a list of (address, byte) cells in one canonical form: addresses strictly rising, no
listed byte 0x00. An unlisted address reads as 0x00 (R32, R183). -/
abbrev Memory := List Host.Cell

/-- The whole state of the core (R10, R22, R23, R24, R30) and the configuration reset fixed (R4, R180). -/
structure State where
  /-- The register file (R10). -/
  regs : RegFile
  /-- The engine state `STATE` (R22). -/
  engine : Engine
  /-- The instruction counter `ICOUNT`, unbounded (R23). -/
  icount : Nat
  /-- The memory buffer (R30). -/
  mem : Memory
  /-- The configuration (R4), changed by no step. -/
  cfg : Config
deriving DecidableEq, Repr

/-- The ways a step stops with a fault. There is none: the spec gives every fatal error a terminal state
`Faulted(cause)` (R22, R160), so taking one is a next state, and no step of this machine ends outside the spec's states.
Safe: log 4. -/
inductive Fault
deriving DecidableEq, Repr

/-- The ways a step is refused. -/
inductive Refusal
  /-- An instruction that has no meaning yet; raised by `exec`'s refused arms only, of which there is none. Safe. -/
  | notModelled (mnemonic : String)
deriving DecidableEq, Repr

/-- The machine right after the reset of R181 to R183 with the empty image loaded under `Config.default`: general
registers 0, `PC = STATIC_SIZE`, `SP = BP = STACK_OFFSET` (both 0 here, as the image has no byte), FLAGS 0, `Running`,
`ICOUNT = 0`, every byte 0x00. `loadImage` gives the reset state of any other image. That the image is empty is the
model's choice: log 1. -/
def State.reset : State where
  regs :=
    { x0 := 0, x1 := 0, x2 := 0, x3 := 0, x4 := 0, x5 := 0, x6 := 0, x7 := 0, pc := 0, sp := 0, bp := 0, flags := 0 }
  engine := .running
  icount := 0
  mem := []
  cfg := Config.default

end Sys2Proof.Machine
end

