-- ==== Sys2Proof/Machine/Memory.lean ====
section
/-! DEFINITION. The memory buffer: reading and writing bytes and words, and its canonical form (20_memory.md R30, R32,
R38). -/

namespace Sys2Proof.Machine

/-- What an address that is not listed reads as: 0x00 (R32, R183). -/
def unlistedByte : Byte := 0

/-- The byte at an address. -/
def Memory.read : Memory → Nat → Byte
  | [], _ => unlistedByte
  | (k, b) :: rest, a => if k = a then b else Memory.read rest a

/-- Write one byte, keeping the canonical form: writing the byte an unlisted address reads as removes the cell. -/
def Memory.write : Memory → Nat → Byte → Memory
  | [], a, v => if v = unlistedByte then [] else [(a, v)]
  | (k, b) :: rest, a, v =>
    if a < k then
      if v = unlistedByte then (k, b) :: rest else (a, v) :: (k, b) :: rest
    else if a = k then
      if v = unlistedByte then rest else (a, v) :: rest
    else (k, b) :: Memory.write rest a v

/-- The cells are at addresses from `lo` on, strictly rising, none holding the unlisted byte. -/
def Memory.wfFrom : Nat → Memory → Bool
  | _, [] => true
  | lo, (k, b) :: rest => lo ≤ k && b != unlistedByte && Memory.wfFrom (k + 1) rest

/-- The canonical form of the memory: addresses strictly rising, no cell equal to what an unlisted address reads as. -/
def Memory.wf (m : Memory) : Bool := Memory.wfFrom 0 m

/-- Every cell is below an address. -/
def Memory.below (m : Memory) (hi : Nat) : Bool := m.all fun c => c.1 < hi

/-- The word at an address: the byte at `a` low, the byte at `a + 1` high (R38). -/
def Memory.readWord (m : Memory) (a : Nat) : Word := leWord (m.read a) (m.read (a + 1))

/-- Write a word, its low byte at `a` and its high byte at `a + 1` (R38, R43). -/
def Memory.writeWord (m : Memory) (a : Nat) (v : Word) : Memory :=
  (m.write a (loByte v)).write (a + 1) (hiByte v)

/-- The `n` bytes from an address on, lowest address first. -/
def Memory.bytes (m : Memory) (a : Nat) : Nat → List Byte
  | 0 => []
  | n + 1 => m.read a :: m.bytes (a + 1) n

/-- The memory that holds a byte string from an address on and 0x00 elsewhere (R183). -/
def Memory.ofBytes : Nat → List Byte → Memory
  | _, [] => []
  | a, b :: rest => if b = unlistedByte then Memory.ofBytes (a + 1) rest else (a, b) :: Memory.ofBytes (a + 1) rest

/-- Write a byte string from an address on. -/
def Memory.writeBytes (m : Memory) (a : Nat) : List Byte → Memory
  | [] => m
  | b :: rest => (m.write a b).writeBytes (a + 1) rest

end Sys2Proof.Machine
end

