-- ==== Sys2Proof/Machine/Translator.lean ====
section
/-! DEFINITION. The memory address translator: segments and the three address checks (20_memory.md R34 to R37, 10_state.md
R28). -/

namespace Sys2Proof.Machine

/-- The parts of the buffer an address can lie in (R35). -/
inductive Segment
  | programStatic
  | programCode
  | stack
  | heap
  | outside
deriving DecidableEq, Repr

/-- `STACK_OFFSET = PROGRAM_OFFSET + PROGRAM_SIZE`, with `PROGRAM_OFFSET = 0` (R4, R34). -/
def stackOffset (c : Config) : Nat := c.programSize

/-- `HEAP_OFFSET = STACK_OFFSET + STACK_SIZE` (R4, R34). -/
def heapOffset (c : Config) : Nat := stackOffset c + c.stackSize

/-- `HEAP_SIZE = MEM_SIZE - HEAP_OFFSET` (R4, R34). -/
def heapSize (c : Config) : Nat := c.memSize - heapOffset c

/-- `segment(a)` (R35). -/
def segment (c : Config) (a : Word) : Segment :=
  if a.toNat < c.staticSize then .programStatic
  else if a.toNat < c.programSize then .programCode
  else if a.toNat < heapOffset c then .stack
  else if a.toNat < c.memSize then .heap
  else .outside

/-- `executable(a)` (R36): "at or past the static-segment boundary, and before the end of the program segment". -/
def executable (c : Config) (a : Word) : Bool := c.staticSize ≤ a.toNat && a.toNat < c.programSize

/-- `in_range(a)` (R37). -/
def inRange (c : Config) (a : Word) : Bool := a.toNat < c.memSize

/-- `writable(a)` (R37). -/
def writable (c : Config) (a : Word) : Bool := inRange c a && !(c.programReadonly && a.toNat < c.programSize)

/-- An access of `n` bytes at `a` stays inside the buffer, on the unwrapped sum (R42). -/
def accessFits (c : Config) (a : Word) (n : Nat) : Bool := a.toNat + n ≤ c.memSize

end Sys2Proof.Machine
end

