-- ==== Sys2Proof/Machine/Ops.lean ====
section
/-! DEFINITION. The named operations over registers and memory, taking a fatal error, and the end of an instruction
(00_scope.md R7, 20_memory.md R42, R43, 42_stack.md R110, 60_exceptions.md R160, 40_execution_cycle.md R77, R78). -/

namespace Sys2Proof.Machine

/-- What a step or an instruction answers. -/
abbrev Result := Host.Outcome State Fault Refusal

/-! ### Registers -/

/-- `rf_read` (R25): the word of a register. -/
def RegFile.get (f : RegFile) : Reg → Word
  | .x0 => f.x0
  | .x1 => f.x1
  | .x2 => f.x2
  | .x3 => f.x3
  | .x4 => f.x4
  | .x5 => f.x5
  | .x6 => f.x6
  | .x7 => f.x7
  | .pc => f.pc
  | .sp => f.sp
  | .bp => f.bp
  | .flags => f.flags

/-- `rf_write` (R25): the register file with one word replaced. -/
def RegFile.set (f : RegFile) (r : Reg) (v : Word) : RegFile :=
  match r with
  | .x0 => { f with x0 := v }
  | .x1 => { f with x1 := v }
  | .x2 => { f with x2 := v }
  | .x3 => { f with x3 := v }
  | .x4 => { f with x4 := v }
  | .x5 => { f with x5 := v }
  | .x6 => { f with x6 := v }
  | .x7 => { f with x7 := v }
  | .pc => { f with pc := v }
  | .sp => { f with sp := v }
  | .bp => { f with bp := v }
  | .flags => { f with flags := v }

/-- `x[r]`, the read of a register (R7). -/
def State.reg (s : State) (r : Reg) : Word := s.regs.get r

/-- `x[r] <- v`, the write of a register (R7). -/
def State.setReg (s : State) (r : Reg) (v : Word) : State := { s with regs := s.regs.set r v }

/-! ### The other fields -/

/-- `STATE <- e` (R22). -/
def State.setEngine (s : State) (e : Engine) : State := { s with engine := e }

/-- Replace the memory buffer. -/
def State.setMem (s : State) (m : Memory) : State := { s with mem := m }

/-- `ICOUNT <- ICOUNT + 1` (R78). -/
def State.count (s : State) : State := { s with icount := s.icount + 1 }

/-- The byte of the buffer at an address. -/
def State.byteAt (s : State) (a : Nat) : Byte := s.mem.read a

/-! ### Taking a fatal error, and ending an instruction -/

/-- `raise Cause(info)` (R160): the machine enters the terminal state `Faulted(cause)` and nothing else changes: no
register, PC included, no byte, no flag, and the instruction is not counted. There is no trap entry and no trap return
(R169, R171). -/
def raise (c : Cause) (s : State) : Result := .next (s.setEngine (.faulted c))

/-- The end of a non-control-flow instruction (R14, R77, R78): PC, as the semantics left it, advances by the size of the
shape class modulo 65536, and the instruction is counted. -/
def retire (sh : Shape) (s : State) : State := (s.setReg .pc (s.reg .pc + BitVec.ofNat 16 sh.size)).count

/-- End a non-control-flow instruction that was fetched in `s`: a fatal error leaves `s` unchanged but for the engine
state, else the state the semantics left is advanced and counted (R70, R76, R77, R78). -/
def finish (sh : Shape) (s : State) : Except Cause State → Result
  | .error c => raise c s
  | .ok t => .next (retire sh t)

/-- End a control-flow instruction: it has set PC itself and is counted (R14, R78). -/
def finishControl (s : State) : Result := .next s.count

/-! ### Memory accesses -/

/-- `MemRead(addr, 2)` (R42): the bound is checked on the unwrapped sum; every segment may be read. -/
def memRead (s : State) (a : Word) : Except Cause Word :=
  if accessFits s.cfg a 2 then .ok (s.mem.readWord a.toNat) else .error (.outOfBoundsAccess a)

/-- `MemWrite(addr, 2, v)` (R43): out of range is a fatal error; a write whose first byte is in a read-only program
segment is the soft halt of R166, discarded whole; any other is performed. -/
def memWrite (s : State) (a v : Word) : Except Cause State :=
  if accessFits s.cfg a 2 then
    if writable s.cfg a then .ok (s.setMem (s.mem.writeWord a.toNat v)) else .ok (s.setEngine .halted)
  else .error (.outOfBoundsAccess a)

/-! ### The stack -/

/-- The address of the word `n` bytes below the stack pointer, modulo 65536 (R15, R110). -/
def belowSp (s : State) (n : Nat) : Word := s.reg .sp - BitVec.ofNat 16 n

/-- Push a word (R110): write it at SP, then `SP <- SP +16 2`, also when the write was discarded. -/
def push (s : State) (v : Word) : Except Cause State :=
  match memWrite s (s.reg .sp) v with
  | .error c => .error c
  | .ok t => .ok (t.setReg .sp (s.reg .sp + 2))

/-- Pop a word (R110): `SP <- SP -16 2` and the word there. -/
def pop (s : State) : Except Cause (Word × State) :=
  match memRead s (belowSp s 2) with
  | .error c => .error c
  | .ok v => .ok (v, s.setReg .sp (belowSp s 2))

end Sys2Proof.Machine
end

