-- ==== Sys2Proof/Machine/Operands.lean ====
section
/-! DEFINITION. The operand forms: source values, destination locations, and the operand shape of the arithmetic
instructions (40_execution_cycle.md R76, 41_arithmetic.md R80, 43_move.md R120). -/

namespace Sys2Proof.Machine

/-- A source value "per the shape (register slot, immediate, or memory address)" (R76). -/
inductive Source
  | reg (r : Reg)
  | imm (v : Word)
  | mem (addr : Word)
deriving DecidableEq, Repr

/-- A destination location: a register slot or a memory address (R76). -/
inductive Dest
  | reg (r : Reg)
  | mem (addr : Word)
deriving DecidableEq, Repr

/-- The word a source operand gives; a memory operand is the whole word at the absolute address (R120). -/
def readSource (s : State) : Source → Except Cause Word
  | .reg r => .ok (s.reg r)
  | .imm v => .ok v
  | .mem a => memRead s a

/-- Write a word to a destination (R76, R120). -/
def writeDest (s : State) (v : Word) : Dest → Except Cause State
  | .reg r => .ok (s.setReg r v)
  | .mem a => memWrite s a v

/-- "plain copy of raw bits between their operand locations" (R120). -/
def copyWord (d : Dest) (src : Source) (s : State) : Except Cause State :=
  match readSource s src with
  | .error c => .error c
  | .ok v => writeDest s v d

/-- The two-operand template of R80 for a function that raises nothing: both operands are read before the first register
is written. -/
def aluTwo (f : Word → Word → Word) (rd rs : Reg) (s : State) : Except Cause State :=
  .ok (s.setReg rd (f (s.reg rd) (s.reg rs)))

/-- The two-operand template of R80 for a function with a divide-by-zero indication (R84, R88, R164). -/
def aluDivide (f : Word → Word → Option Word) (rd rs : Reg) (s : State) : Except Cause State :=
  match f (s.reg rd) (s.reg rs) with
  | none => .error (.divideByZero (s.reg .pc))
  | some v => .ok (s.setReg rd v)

end Sys2Proof.Machine
end

