-- ==== Sys2Proof/Machine/Arithmetic.lean ====
section
/-! DEFINITION. The arithmetic family: integer, half-precision and bitwise instructions (41_arithmetic.md). -/

namespace Sys2Proof.Machine

/-- ADD (R81). -/
def execAdd (rd rs : Reg) (s : State) : Result := finish .regReg s (aluTwo aluAdd rd rs s)

/-- SUB (R82). -/
def execSub (rd rs : Reg) (s : State) : Result := finish .regReg s (aluTwo aluSub rd rs s)

/-- MUL (R83). -/
def execMul (rd rs : Reg) (s : State) : Result := finish .regReg s (aluTwo aluMul rd rs s)

/-- DIV (R84). -/
def execDiv (rd rs : Reg) (s : State) : Result := finish .regReg s (aluDivide aluDiv rd rs s)

/-- ADDS (R85). -/
def execAdds (rd rs : Reg) (s : State) : Result := finish .regReg s (aluTwo aluAdds rd rs s)

/-- SUBS (R86). -/
def execSubs (rd rs : Reg) (s : State) : Result := finish .regReg s (aluTwo aluSubs rd rs s)

/-- MULS (R87). -/
def execMuls (rd rs : Reg) (s : State) : Result := finish .regReg s (aluTwo aluMuls rd rs s)

/-- DIVS (R88). -/
def execDivs (rd rs : Reg) (s : State) : Result := finish .regReg s (aluDivide aluDivs rd rs s)

/-- ADDF (R95). -/
def execAddf (rd rs : Reg) (s : State) : Result := finish .regReg s (aluTwo aluAddf rd rs s)

/-- SUBF (R96). -/
def execSubf (rd rs : Reg) (s : State) : Result := finish .regReg s (aluTwo aluSubf rd rs s)

/-- MULF (R97). -/
def execMulf (rd rs : Reg) (s : State) : Result := finish .regReg s (aluTwo aluMulf rd rs s)

/-- DIVF (R98); division by zero is no fatal error. -/
def execDivf (rd rs : Reg) (s : State) : Result := finish .regReg s (aluTwo aluDivf rd rs s)

/-- OR (R99). -/
def execOr (rd rs : Reg) (s : State) : Result := finish .regReg s (aluTwo aluOr rd rs s)

/-- XOR (R100). -/
def execXor (rd rs : Reg) (s : State) : Result := finish .regReg s (aluTwo aluXor rd rs s)

/-- AND (R101). -/
def execAnd (rd rs : Reg) (s : State) : Result := finish .regReg s (aluTwo aluAnd rd rs s)

/-- NOT (R102): the register is source and destination. -/
def execNot (r : Reg) (s : State) : Result := finish .reg s (.ok (s.setReg r (aluNot (s.reg r))))

end Sys2Proof.Machine
end

