-- ==== Sys2Proof/Machine/Flags.lean ====
section
/-! DEFINITION. The flag register block: the compare outcome and the jump conditions (10_state.md R17, R18, R29,
44_compare.md R130, 45_control.md R140 to R147). -/

namespace Sys2Proof.Machine

/-- The three outcomes of a comparison (R130). -/
inductive CmpOutcome
  | equal
  | lessThan
  | greaterThan
deriving DecidableEq, Repr

/-- The three-way unsigned comparison of a left and a right word (R130). -/
def compareWords (a b : Word) : CmpOutcome :=
  if a.toNat = b.toNat then .equal else if a.toNat < b.toNat then .lessThan else .greaterThan

/-- The flag mask of an outcome: EQ bit 0, LT bit 1, GT bit 2 (R17). -/
def CmpOutcome.mask : CmpOutcome → Word
  | .equal => 0x0001
  | .lessThan => 0x0002
  | .greaterThan => 0x0004

/-- `set_compare(o)` (R18, R29): `(FLAGS AND 0xFFF8) OR outcome`. -/
def setCompare (flags : Word) (o : CmpOutcome) : Word := (flags &&& 0xFFF8) ||| o.mask

/-- `EQ`, bit 0 (R17). -/
def flagEq (flags : Word) : Bool := flags.getLsbD 0

/-- `LT`, bit 1 (R17). -/
def flagLt (flags : Word) : Bool := flags.getLsbD 1

/-- `GT`, bit 2 (R17). -/
def flagGt (flags : Word) : Bool := flags.getLsbD 2

/-- JUMP_EQ's condition (R142). -/
def condEq (flags : Word) : Bool := flagEq flags

/-- JUMP_NEQ's condition: EQ clear (R143). -/
def condNeq (flags : Word) : Bool := !flagEq flags

/-- JUMP_GT's condition (R144). -/
def condGt (flags : Word) : Bool := flagGt flags

/-- JUMP_LT's condition (R145). -/
def condLt (flags : Word) : Bool := flagLt flags

/-- JUMP_GEQ's condition: GT or EQ set (R146). -/
def condGeq (flags : Word) : Bool := flagGt flags || flagEq flags

/-- JUMP_LEQ's condition: LT or EQ set (R147). -/
def condLeq (flags : Word) : Bool := flagLt flags || flagEq flags

end Sys2Proof.Machine
end

