-- ==== Sys2Proof/Machine/Compare.lean ====
section
/-! DEFINITION. The compare family (44_compare.md). -/

namespace Sys2Proof.Machine

/-- `compare(a, b)` (R130): FLAGS get the outcome of the unsigned comparison in bits 2:0, bits 15:3 keep their values. -/
def compareInto (a b : Word) (s : State) : State := s.setReg .flags (setCompare (s.reg .flags) (compareWords a b))

/-- Compare a register word with a memory word, the left comparand chosen by `CMP_MEM_ORDER` (R133, R134). -/
def compareSided (left : CmpSide) (regWord memWord : Word) (s : State) : State :=
  match left with
  | .register => compareInto regWord memWord s
  | .memory => compareInto memWord regWord s

/-- CMP (R131): the deeper word (at SP - 4) against the top word (at SP - 2); nothing is popped. -/
def execCmp (s : State) : Result :=
  finish .none s
    (match memRead s (belowSp s 4) with
      | .error c => .error c
      | .ok a =>
        match memRead s (belowSp s 2) with
        | .error c => .error c
        | .ok b => .ok (compareInto a b s))

/-- CMP_REG_REG (R132): left is the first register. -/
def execCmpRegReg (rd rs : Reg) (s : State) : Result := finish .regReg s (.ok (compareInto (s.reg rd) (s.reg rs) s))

/-- CMP_REG_MEM (R133). -/
def execCmpRegMem (r : Reg) (addr : Word) (s : State) : Result :=
  finish .regMem s
    (match memRead s addr with
      | .error c => .error c
      | .ok m => .ok (compareSided s.cfg.regMemLeft (s.reg r) m s))

/-- CMP_MEM_REG (R134). -/
def execCmpMemReg (addr : Word) (r : Reg) (s : State) : Result :=
  finish .memReg s
    (match memRead s addr with
      | .error c => .error c
      | .ok m => .ok (compareSided s.cfg.memRegLeft (s.reg r) m s))

end Sys2Proof.Machine
end

