-- ==== Sys2Proof/Machine/Control.lean ====
section
/-! DEFINITION. The control family (45_control.md). -/

namespace Sys2Proof.Machine

/-- The common behaviour of the seven jumps (R140): the target when the condition holds, else the next instruction; PC
is written here, with no automatic advance, and the target is not checked. -/
def jumpIf (taken : Bool) (addr : Word) (s : State) : Result :=
  finishControl (s.setReg .pc (if taken then addr else s.reg .pc + BitVec.ofNat 16 Shape.imm.size))

/-- JUMP (R141). -/
def execJump (addr : Word) (s : State) : Result := jumpIf true addr s

/-- JUMP_EQ (R142). -/
def execJumpEq (addr : Word) (s : State) : Result := jumpIf (condEq (s.reg .flags)) addr s

/-- JUMP_NEQ (R143). -/
def execJumpNeq (addr : Word) (s : State) : Result := jumpIf (condNeq (s.reg .flags)) addr s

/-- JUMP_GT (R144). -/
def execJumpGt (addr : Word) (s : State) : Result := jumpIf (condGt (s.reg .flags)) addr s

/-- JUMP_LT (R145). -/
def execJumpLt (addr : Word) (s : State) : Result := jumpIf (condLt (s.reg .flags)) addr s

/-- JUMP_GEQ (R146). -/
def execJumpGeq (addr : Word) (s : State) : Result := jumpIf (condGeq (s.reg .flags)) addr s

/-- JUMP_LEQ (R147). -/
def execJumpLeq (addr : Word) (s : State) : Result := jumpIf (condLeq (s.reg .flags)) addr s

/-- CALL (R148), its five writes in the rule's order; the words written are those from before the instruction (R25,
log 10). -/
def execCall (addr : Word) (s : State) : Result :=
  finishControl
    (((((s.setReg s.cfg.linkBp (s.reg .bp)).setReg s.cfg.linkSp (s.reg .sp)).setReg s.cfg.linkRa
      (s.reg .pc + BitVec.ofNat 16 Shape.imm.size)).setReg .bp (s.reg .sp)).setReg .pc addr)

/-- RET (R149), its three writes in the rule's order; the words written are those from before the instruction (R25,
log 10). -/
def execRet (s : State) : Result :=
  finishControl
    (((s.setReg .bp (s.reg s.cfg.linkBp)).setReg .sp (s.reg s.cfg.linkSp)).setReg .pc (s.reg s.cfg.linkRa))

/-- HALT (R151): the engine is halted and, HALT being no control-flow opcode, PC advances past it. -/
def execHalt (s : State) : Result := finish .none s (.ok (s.setEngine .halted))

/-- NOOP (R152). -/
def execNoop (s : State) : Result := finish .none s (.ok s)

end Sys2Proof.Machine
end

