-- ==== Sys2Proof/Machine/Move.lean ====
section
/-! DEFINITION. The move family (43_move.md). -/

namespace Sys2Proof.Machine

/-- MOV_REG_IMM (R121). -/
def execMovRegImm (r : Reg) (imm : Word) (s : State) : Result := finish .regImm s (copyWord (.reg r) (.imm imm) s)

/-- MOV_REG_REG (R122). -/
def execMovRegReg (rd rs : Reg) (s : State) : Result := finish .regReg s (copyWord (.reg rd) (.reg rs) s)

/-- MOV_REG_MEM, the load (R123). -/
def execMovRegMem (r : Reg) (addr : Word) (s : State) : Result := finish .regMem s (copyWord (.reg r) (.mem addr) s)

/-- MOV_MEM_REG, the store (R124). -/
def execMovMemReg (addr : Word) (r : Reg) (s : State) : Result := finish .memReg s (copyWord (.mem addr) (.reg r) s)

end Sys2Proof.Machine
end

