-- ==== Sys2Proof/Machine/Stack.lean ====
section
/-! DEFINITION. The stack family (42_stack.md). -/

namespace Sys2Proof.Machine

/-- PUSH (R111): the register is read first, so `PUSH $RSP` stores the SP from before the push. -/
def execPush (r : Reg) (s : State) : Result := finish .reg s (push s (s.reg r))

/-- PUSH_IMM (R112). -/
def execPushImm (imm : Word) (s : State) : Result := finish .imm s (push s imm)

/-- POP (R113): the register is written after SP is updated. -/
def execPop (r : Reg) (s : State) : Result :=
  finish .reg s
    (match pop s with
      | .error c => .error c
      | .ok (v, t) => .ok (t.setReg r v))

/-- DUP (R114): read the word directly below SP without removing it and push a copy. -/
def execDup (s : State) : Result :=
  finish .none s
    (match memRead s (belowSp s 2) with
      | .error c => .error c
      | .ok v => push s v)

end Sys2Proof.Machine
end

