-- ==== Sys2Proof/Machine/Dispatch.lean ====
section
/-! DEFINITION. Which meaning each instruction has (40_execution_cycle.md R76). -/

namespace Sys2Proof.Machine

/-- The effect of a decoded instruction, its advance of PC and its count included (R76 to R78). -/
def exec (i : Instr) (s : State) : Host.Outcome State Fault Refusal :=
  match i with
  | .dup => Sys2Proof.Machine.execDup s
  | .cmp => Sys2Proof.Machine.execCmp s
  | .ret => Sys2Proof.Machine.execRet s
  | .halt => Sys2Proof.Machine.execHalt s
  | .noop => Sys2Proof.Machine.execNoop s
  | .pushImm imm => Sys2Proof.Machine.execPushImm imm s
  | .jump addr => Sys2Proof.Machine.execJump addr s
  | .jumpEq addr => Sys2Proof.Machine.execJumpEq addr s
  | .jumpNeq addr => Sys2Proof.Machine.execJumpNeq addr s
  | .jumpGt addr => Sys2Proof.Machine.execJumpGt addr s
  | .jumpLt addr => Sys2Proof.Machine.execJumpLt addr s
  | .jumpGeq addr => Sys2Proof.Machine.execJumpGeq addr s
  | .jumpLeq addr => Sys2Proof.Machine.execJumpLeq addr s
  | .call addr => Sys2Proof.Machine.execCall addr s
  | .not r => Sys2Proof.Machine.execNot r s
  | .push r => Sys2Proof.Machine.execPush r s
  | .pop r => Sys2Proof.Machine.execPop r s
  | .movRegImm r imm => Sys2Proof.Machine.execMovRegImm r imm s
  | .add rd rs => Sys2Proof.Machine.execAdd rd rs s
  | .sub rd rs => Sys2Proof.Machine.execSub rd rs s
  | .mul rd rs => Sys2Proof.Machine.execMul rd rs s
  | .div rd rs => Sys2Proof.Machine.execDiv rd rs s
  | .adds rd rs => Sys2Proof.Machine.execAdds rd rs s
  | .subs rd rs => Sys2Proof.Machine.execSubs rd rs s
  | .muls rd rs => Sys2Proof.Machine.execMuls rd rs s
  | .divs rd rs => Sys2Proof.Machine.execDivs rd rs s
  | .addf rd rs => Sys2Proof.Machine.execAddf rd rs s
  | .subf rd rs => Sys2Proof.Machine.execSubf rd rs s
  | .mulf rd rs => Sys2Proof.Machine.execMulf rd rs s
  | .divf rd rs => Sys2Proof.Machine.execDivf rd rs s
  | .or rd rs => Sys2Proof.Machine.execOr rd rs s
  | .xor rd rs => Sys2Proof.Machine.execXor rd rs s
  | .and rd rs => Sys2Proof.Machine.execAnd rd rs s
  | .movRegReg rd rs => Sys2Proof.Machine.execMovRegReg rd rs s
  | .cmpRegReg rd rs => Sys2Proof.Machine.execCmpRegReg rd rs s
  | .movRegMem r addr => Sys2Proof.Machine.execMovRegMem r addr s
  | .cmpRegMem r addr => Sys2Proof.Machine.execCmpRegMem r addr s
  | .movMemReg addr r => Sys2Proof.Machine.execMovMemReg addr r s
  | .cmpMemReg addr r => Sys2Proof.Machine.execCmpMemReg addr r s

end Sys2Proof.Machine
end

