-- ==== Sys2Proof/Machine/Fetch.lean ====
section
/-! DEFINITION. Fetching an instruction: the bytes at PC, and the errors of fetch and decode (40_execution_cycle.md R72 to
R75). -/

namespace Sys2Proof.Machine

/-- The longest instruction, in bytes (R50). -/
def maxInstrBytes : Nat := 4

/-- The bytes the decoder can see: up to four bytes from PC on, as many as the buffer holds (R73, R74). Only the opcode
byte's address is checked against the executable region, so operand bytes may lie past the program segment. -/
def fetchBytes (s : State) : List Byte :=
  s.mem.bytes (s.reg .pc).toNat (min maxInstrBytes (s.cfg.memSize - (s.reg .pc).toNat))

/-- The fatal error a refused byte string raises at an address (R73, R74, R75). -/
def DecodeError.cause (pc : Word) : DecodeError → Cause
  | .illegalOpcode op => .illegalOpcode op pc
  | .missingBytes => .outOfBoundsAccess pc
  | .illegalRegister id => .illegalRegister id pc

/-- Validate PC (R72), fetch the opcode byte, decode it, fetch the operand bytes and check the register ids (R73 to R75),
in the order of R168. -/
def fetch (s : State) : Except Cause Instr :=
  if executable s.cfg (s.reg .pc) then
    match decode (fetchBytes s) with
    | .ok i => .ok i
    | .error e => .error (DecodeError.cause (s.reg .pc) e)
  else .error (.outOfBoundsExecution (s.reg .pc))

/-- The configuration under which the four bytes from an address on are code: the executable region covers them as far
as 16-bit addresses reach, and the other sizes give way where they must. -/
def Config.withCodeAt (c : Config) (pc : Nat) : Config :=
  let program := max c.programSize (min (pc + maxInstrBytes) 65536)
  let memory := max c.memSize program
  { c with
    staticSize := min c.staticSize pc
    programSize := program
    stackSize := min c.stackSize (memory - program)
    memSize := memory }

/-- A running machine whose bytes at PC are the given ones and executable: a program loaded from outside (log 11). -/
def State.withCodeBytes (s : State) (code : List Byte) : State :=
  let pc := (s.reg .pc).toNat
  { s with
    engine := .running
    mem := s.mem.writeBytes pc (code.take (65536 - pc))
    cfg := Config.withCodeAt s.cfg pc }

end Sys2Proof.Machine
end

