-- ==== Sys2Proof/Machine/Step.lean ====
section
/-! DEFINITION. One step of the core (40_execution_cycle.md R70), and the state that runs a given instruction next. -/

namespace Sys2Proof.Machine

/-- One step (R70). A machine that is not running does nothing (R71); a fatal error of fetch or decode is taken (R72 to
R75, R160); else the decoded instruction is executed, advanced and counted by `exec` (R76 to R78). -/
def step (s : State) : Host.Outcome State Fault Refusal :=
  match s.engine with
  | .halted => .next s
  | .faulted _ => .next s
  | .running =>
    match fetch s with
    | .error c => raise c s
    | .ok i => exec i s

/-- `s` running, with an instruction of the opcode table stored at PC and the program segment large enough that PC is
executable: this stands for the load of a program (log 1, log 11). -/
def State.withFetchWord (s : State) (nbits w : Nat) : State := State.withCodeBytes s (tableBytes nbits w)

end Sys2Proof.Machine
end

