-- ==== Sys2Proof/WellFormed.lean ====
section
/-! DEFINITION. Which register-id fields and which configurations are well formed (30_encoding.md R55, 70_reset_and_hazards.md
R189). A term of `Instr` is well formed by construction: its registers are the twelve of `Reg` and its words have 16 bits. -/

namespace Sys2Proof

/-- `reg_ok` for one register-id byte: "at most 11" (R26, R55). -/
def regIdOk (b : Byte) : Bool := b.toNat ≤ 11

/-- A general register, index 0 to 7 (R11): what the link registers must be (R4). -/
def Reg.isGeneral (r : Reg) : Bool := r.id.toNat ≤ 7

/-- `0 <= STATIC_SIZE <= PROGRAM_SIZE` (R34, R189). -/
def Config.staticFits (c : Config) : Bool := c.staticSize ≤ c.programSize

/-- `PROGRAM_SIZE + STACK_SIZE <= MEM_SIZE` (R34, R189). -/
def Config.segmentsFit (c : Config) : Bool := c.programSize + c.stackSize ≤ c.memSize

/-- `MEM_SIZE <= 65536` (R30, R189). -/
def Config.memoryAddressable (c : Config) : Bool := c.memSize ≤ 65536

/-- The link registers are three different general registers ("two fixed general registers", "a third fixed register",
R148). -/
def Config.linksOk (c : Config) : Bool :=
  c.linkSp.isGeneral && c.linkBp.isGeneral && c.linkRa.isGeneral &&
    c.linkSp != c.linkBp && c.linkSp != c.linkRa && c.linkBp != c.linkRa

/-- A configuration the loader accepts (R34, R189) and whose link registers are as R148 says. -/
def Config.wf (c : Config) : Bool := c.staticFits && c.segmentsFit && c.memoryAddressable && c.linksOk

end Sys2Proof
end

