-- ==== Sys2Proof/Machine/Image.lean ====
section
/-! DEFINITION. Reset: loading a program image into a fresh machine (70_reset_and_hazards.md R180 to R191). -/

namespace Sys2Proof.Machine

/-- The magic of a program image in file order, `BE EF CA FE` (R186, decision D31). -/
def imageMagic : List Byte := [0xBE, 0xEF, 0xCA, 0xFE]

/-- The fields of the 13-byte image header after the magic (R186). The core uses the static-segment size only; version
and options are carried and never read (R190). -/
structure Header where
  version : Word
  endianness : Byte
  options : BitVec 32
  staticSize : Word
deriving DecidableEq, Repr

/-- Read a header and the image body after it; `none` when the image is shorter than 13 bytes (R186). -/
def parseHeader : List Byte → Option (Header × List Byte)
  | _ :: _ :: _ :: _ :: v0 :: v1 :: e :: o0 :: o1 :: o2 :: o3 :: z0 :: z1 :: body =>
    some
      ({ version := leWord v0 v1, endianness := e, options := leWord o2 o3 ++ leWord o0 o1, staticSize := leWord z0 z1 },
       body)
  | _ => none

/-- The image of a header and a body (static data, then code): "Header ‖ StaticDataBytes ‖ Code" (R186). -/
def imageBytes (h : Header) (body : List Byte) : List Byte :=
  imageMagic ++
    [loByte h.version, hiByte h.version, h.endianness, h.options.extractLsb' 0 8, h.options.extractLsb' 8 8,
     h.options.extractLsb' 16 8, h.options.extractLsb' 24 8, loByte h.staticSize, hiByte h.staticSize] ++ body

/-- Why the loader refuses: a host error, no machine is created (R189). -/
inductive LoadError
  /-- The magic matches and the image has fewer than 13 bytes. -/
  | truncatedHeader
  /-- The header's endianness byte is not 0 (R190). -/
  | endianness
  /-- `STATIC_SIZE > PROGRAM_SIZE`. -/
  | staticTooLarge
  /-- `PROGRAM_SIZE + STACK_SIZE > MEM_SIZE`. -/
  | segmentsTooLarge
  /-- `MEM_SIZE > 65536`. -/
  | memoryTooLarge
deriving DecidableEq, Repr

/-- The parameters the host chooses at load (R4, R188, R191). -/
structure HostParams where
  stackSize : Nat
  memSize : Nat
  programReadonly : Bool
  regMemLeft : CmpSide
  memRegLeft : CmpSide
  linkSp : Reg
  linkBp : Reg
  linkRa : Reg
deriving DecidableEq, Repr

/-- The host parameters of `Config.default` (log 2). -/
def HostParams.default : HostParams where
  stackSize := Config.default.stackSize
  memSize := Config.default.memSize
  programReadonly := Config.default.programReadonly
  regMemLeft := Config.default.regMemLeft
  memRegLeft := Config.default.memRegLeft
  linkSp := Config.default.linkSp
  linkBp := Config.default.linkBp
  linkRa := Config.default.linkRa

/-- The configuration of a static size, a program size and the host's parameters (R188). -/
def HostParams.config (p : HostParams) (staticSize programSize : Nat) : Config where
  staticSize := staticSize
  programSize := programSize
  stackSize := p.stackSize
  memSize := p.memSize
  programReadonly := p.programReadonly
  regMemLeft := p.regMemLeft
  memRegLeft := p.memRegLeft
  linkSp := p.linkSp
  linkBp := p.linkBp
  linkRa := p.linkRa

/-- The state of reset under a configuration, the body in the program segment (R181, R182, R183). A stack offset of
65536, which no 16-bit register holds, is taken modulo 65536 (log 12). -/
def freshState (c : Config) (body : List Byte) : State where
  regs :=
    { x0 := 0, x1 := 0, x2 := 0, x3 := 0, x4 := 0, x5 := 0, x6 := 0, x7 := 0
      pc := BitVec.ofNat 16 c.staticSize
      sp := BitVec.ofNat 16 (stackOffset c)
      bp := BitVec.ofNat 16 (stackOffset c)
      flags := 0 }
  engine := .running
  icount := 0
  mem := Memory.ofBytes 0 body
  cfg := c

/-- The static size and the body of an image (R188): with the magic a header is required and checked (R189); "A buffer
whose first 4 bytes don't match the magic is treated as headerless (default header, static size 0)." -/
def splitImage (image : List Byte) : Except LoadError (Nat × List Byte) :=
  if image.take 4 = imageMagic then
    match parseHeader image with
    | none => .error .truncatedHeader
    | some (h, body) => if h.endianness = 0 then .ok (h.staticSize.toNat, body) else .error .endianness
  else .ok (0, image)

/-- Check a configuration (R189) and create the machine. -/
def createMachine (c : Config) (body : List Byte) : Except LoadError State :=
  if !c.staticFits then .error .staticTooLarge
  else if !c.segmentsFit then .error .segmentsTooLarge
  else if !c.memoryAddressable then .error .memoryTooLarge
  else .ok (freshState c body)

/-- The one reset event: load a program image under the host's parameters (R180, R188). `PROGRAM_SIZE` is the length of
the body; the header is not in memory. -/
def loadImage (p : HostParams) (image : List Byte) : Except LoadError State :=
  match splitImage image with
  | .error e => .error e
  | .ok (staticSize, body) => createMachine (p.config staticSize body.length) body

end Sys2Proof.Machine
end

