-- ==== Sys2Proof/Machine/Inspect.lean ====
section
/-! DEFINITION. The host's inspection surface: "read access to the register file, and to program/stack/heap byte windows,
plus a halted flag" (20_memory.md R49, 10_state.md R22). It is not part of instruction semantics. -/

namespace Sys2Proof.Machine

/-- The halted flag: true exactly when `STATE = Halted` (R22). -/
def State.haltedFlag (s : State) : Bool :=
  match s.engine with
  | .halted => true
  | .running => false
  | .faulted _ => false

/-- The cause a fatal error reports to the host (R22, R160). -/
def State.faultCause (s : State) : Option Cause :=
  match s.engine with
  | .faulted c => some c
  | .running => none
  | .halted => none

/-- The twelve words of the register file, in index order (R11, R49). -/
def State.registers (s : State) : List Word := Reg.all.map s.reg

/-- The program window: the bytes of the program segment (R34, R49). -/
def State.programWindow (s : State) : List Byte := s.mem.bytes 0 s.cfg.programSize

/-- The stack window: the bytes of the stack segment (R34, R49). -/
def State.stackWindow (s : State) : List Byte := s.mem.bytes (stackOffset s.cfg) s.cfg.stackSize

/-- The heap window: the bytes of the heap (R34, R49). -/
def State.heapWindow (s : State) : List Byte := s.mem.bytes (heapOffset s.cfg) (heapSize s.cfg)

end Sys2Proof.Machine
end

