-- ==== Sys2Proof/Safety.lean ====
section
/-! DEFINITION. The terms claims are stated in: the invariant of the machine, the ends of a run, and what an instruction
leaves unchanged (40_execution_cycle.md R79, 60_exceptions.md R160, 70_reset_and_hazards.md R192). -/

namespace Sys2Proof.Machine

/-- The state of a machine the loader accepts: a well-formed configuration (R189), the memory in its canonical form and
inside the buffer (R30). It holds of every loaded image and every step keeps it. -/
abbrev State.Inv (s : State) : Prop :=
  s.cfg.wf = true ∧ s.mem.wf = true ∧ s.mem.below s.cfg.memSize = true

/-- The good end of a run: `Halted` (R79, R192). -/
abbrev State.GoodEnd (s : State) : Prop := s.engine = .halted

/-- The bad end of a run: `Faulted(cause)` for some cause (R79, R192). -/
def State.BadEnd (s : State) : Prop := ∃ c, s.engine = .faulted c

/-- `t` is reached from `s` by some number of steps (R79). -/
def Reaches (s t : State) : Prop := ∃ n, Host.Core.run Sys2Proof.core n s = .next t

/-! ### What an instruction changes -/

/-- Every byte of memory reads as before. -/
def SameBytes (s t : State) : Prop := ∀ a, t.byteAt a = s.byteAt a

/-- Every byte of memory but the two of the word at `addr` reads as before. -/
def SameBytesButWord (s t : State) (addr : Word) : Prop :=
  ∀ a, a ≠ addr.toNat → a ≠ addr.toNat + 1 → t.byteAt a = s.byteAt a

/-- The word at `addr` is `v`: bits 7:0 in the byte at `addr`, bits 15:8 in the byte after it (R38). -/
abbrev HoldsWord (t : State) (addr v : Word) : Prop :=
  (t.byteAt addr.toNat).toNat = v.toNat % 256 ∧ (t.byteAt (addr.toNat + 1)).toNat = v.toNat / 256

/-- The configuration and every register outside a list are as before. -/
def SameRegsBut (s t : State) (written : List Reg) : Prop :=
  t.cfg = s.cfg ∧ ∀ r, r ∉ written → t.reg r = s.reg r

/-- `t` is `s` after an instruction of `size` bytes that wrote `v` to `rd`, was advanced and counted, and changed nothing
else (R14, R77, R78). With `rd = pc` the advance is from `v`. -/
def WroteReg (s t : State) (size : Nat) (rd : Reg) (v : Word) : Prop :=
  (rd ≠ .pc → t.reg rd = v) ∧
  t.reg .pc = (if rd = .pc then v else s.reg .pc) + BitVec.ofNat 16 size ∧
  SameRegsBut s t [rd, .pc] ∧ SameBytes s t ∧ t.engine = s.engine ∧ t.icount = s.icount + 1

/-- `t` is `s` after an instruction of `size` bytes that compared `a` with `b` (R130): EQ, LT and GT are the three outcomes,
bits 15:3 of FLAGS are as before, and nothing else but PC and the count changed. -/
def Compared (s t : State) (size : Nat) (a b : Word) : Prop :=
  (t.reg .flags).getLsbD 0 = decide (a.toNat = b.toNat) ∧
  (t.reg .flags).getLsbD 1 = decide (a.toNat < b.toNat) ∧
  (t.reg .flags).getLsbD 2 = decide (b.toNat < a.toNat) ∧
  (∀ i, 3 ≤ i → (t.reg .flags).getLsbD i = (s.reg .flags).getLsbD i) ∧
  t.reg .pc = s.reg .pc + BitVec.ofNat 16 size ∧
  SameRegsBut s t [.flags, .pc] ∧ SameBytes s t ∧ t.engine = s.engine ∧ t.icount = s.icount + 1

/-- `t` is `s` after a jump that left PC at `target` and changed nothing else but the count (R140). -/
def Jumped (s t : State) (target : Word) : Prop :=
  t.reg .pc = target ∧ SameRegsBut s t [.pc] ∧ SameBytes s t ∧ t.engine = s.engine ∧ t.icount = s.icount + 1

/-- `t` is `s` with the engine in `Faulted(c)` and nothing else changed: the whole effect of a fatal error (R160). -/
def TookFault (s t : State) (c : Cause) : Prop :=
  t.engine = .faulted c ∧ t.icount = s.icount ∧ SameRegsBut s t [] ∧ SameBytes s t

/-- The two bytes at `addr` exist (R42). -/
abbrev WordFits (s : State) (addr : Word) : Prop := addr.toNat + 2 ≤ s.cfg.memSize

/-- A write at `addr` is aimed at a read-only program segment (R43). -/
abbrev WriteBlocked (s : State) (addr : Word) : Prop :=
  s.cfg.programReadonly = true ∧ addr.toNat < s.cfg.programSize

/-- The machine runs and PC is in the executable region (R36, R72). -/
abbrev Fetching (s : State) : Prop :=
  s.engine = .running ∧ s.cfg.staticSize ≤ (s.reg .pc).toNat ∧ (s.reg .pc).toNat < s.cfg.programSize

/-- The register an instruction names as its destination (R12). -/
def destOf : Instr → Option Reg
  | .add d _ | .sub d _ | .mul d _ | .div d _ | .adds d _ | .subs d _ | .muls d _ | .divs d _ => some d
  | .addf d _ | .subf d _ | .mulf d _ | .divf d _ | .or d _ | .xor d _ | .and d _ | .movRegReg d _ => some d
  | .not r | .pop r | .movRegImm r _ | .movRegMem r _ => some r
  | .dup | .cmp | .ret | .halt | .noop | .pushImm _ | .jump _ | .jumpEq _ | .jumpNeq _ | .jumpGt _ => none
  | .jumpLt _ | .jumpGeq _ | .jumpLeq _ | .call _ | .push _ => none
  | .cmpRegReg _ _ | .cmpRegMem _ _ | .movMemReg _ _ | .cmpMemReg _ _ => none

/-- The registers other than PC an instruction writes without naming them (R12). -/
def implicitWritesOf (c : Config) : Instr → List Reg
  | .push _ | .pushImm _ | .pop _ | .dup => [.sp]
  | .call _ => [c.linkSp, c.linkBp, c.linkRa, .bp]
  | .ret => [.sp, .bp]
  | .cmp | .cmpRegReg _ _ | .cmpRegMem _ _ | .cmpMemReg _ _ => [.flags]
  | .add _ _ | .sub _ _ | .mul _ _ | .div _ _ | .adds _ _ | .subs _ _ | .muls _ _ | .divs _ _ => []
  | .addf _ _ | .subf _ _ | .mulf _ _ | .divf _ _ | .or _ _ | .xor _ _ | .and _ _ | .movRegReg _ _ => []
  | .not _ | .movRegImm _ _ | .movRegMem _ _ | .movMemReg _ _ | .halt | .noop => []
  | .jump _ | .jumpEq _ | .jumpNeq _ | .jumpGt _ | .jumpLt _ | .jumpGeq _ | .jumpLeq _ => []

/-- The address an instruction stores its word to, where it stores one (R110, R124). -/
def storeAddressOf (s : State) : Instr → Option Word
  | .push _ | .pushImm _ | .dup => some (s.reg .sp)
  | .movMemReg a _ => some a
  | .pop _ | .cmp | .cmpRegReg _ _ | .cmpRegMem _ _ | .cmpMemReg _ _ | .call _ | .ret | .halt | .noop => none
  | .add _ _ | .sub _ _ | .mul _ _ | .div _ _ | .adds _ _ | .subs _ _ | .muls _ _ | .divs _ _ => none
  | .addf _ _ | .subf _ _ | .mulf _ _ | .divf _ _ | .or _ _ | .xor _ _ | .and _ _ | .movRegReg _ _ => none
  | .not _ | .movRegImm _ _ | .movRegMem _ _ => none
  | .jump _ | .jumpEq _ | .jumpNeq _ | .jumpGt _ | .jumpLt _ | .jumpGeq _ | .jumpLeq _ => none

/-! ### Half-precision values -/

/-- A finite half-precision word: exponent field below 31 (R92). -/
def isFinite (w : Word) : Bool := halfExp w != 31

/-- An infinity (R92). -/
def isInfinite (w : Word) : Bool := halfExp w = 31 && halfFrac w = 0

/-- A zero of either sign (R92). -/
def isZero (w : Word) : Bool := halfExp w = 0 && halfFrac w = 0

/-- The magnitude of a finite word in units of 2^-24 (R92): `frac` for a subnormal, `(1024 + frac) * 2^(exp - 1)` for a
normal value. -/
def magnitude (w : Word) : Nat :=
  if halfExp w = 0 then halfFrac w else (1024 + halfFrac w) * 2 ^ (halfExp w - 1)

/-- The value of a finite word in units of 2^-24 (R92). -/
def valueUnits (w : Word) : Int := if halfSign w then -(magnitude w : Int) else magnitude w

/-- The distance, scaled by `2^24 * den`, between a magnitude in units of 2^-24 and the magnitude `num / den`. -/
def distance (mag num den : Nat) : Nat := ((mag * den : Nat) - (num * 2 ^ 24 : Nat) : Int).natAbs

/-- `v` is `num / den` with the given sign rounded to binary16 (R93, "In words"): infinity from 65520 on, else a finite word
of that sign at least as near as every finite word, with an even fraction where another word is equally near. -/
def IsRounded (neg : Bool) (num den : Nat) (v : Word) : Prop :=
  if 65520 * den ≤ num then v = halfInf neg
  else
    isFinite v = true ∧ halfSign v = neg ∧
      ∀ w, isFinite w = true →
        distance (magnitude v) num den ≤ distance (magnitude w) num den ∧
          (distance (magnitude v) num den = distance (magnitude w) num den → magnitude w ≠ magnitude v →
            halfFrac v % 2 = 0)

end Sys2Proof.Machine
end

