-- ==== Sys2Proof/Certificates/Slice0/Obligations.lean ====
section
/-! DEFINITION. The statements for the provers. Each docstring names the rule or the section of spec/ it formalises; where a
clause rests on a decision of the spec itself (D<n> of 92_eei_decisions.md) or on a choice of the model (a log entry), the
docstring says so. `Safety.lean` holds the words the statements use. -/

open Sys2Proof Sys2Proof.Machine

/-! ### Encoding -/

/-- One instruction of each shape class, its bytes written out from R54 and R57 (95_test_vectors.md S9). Opcode numbers:
decisions D1, D2. -/
def Obligations.ReferenceWordsDecode : Prop :=
  decode [0x03] = .ok .halt ∧ decode [0x21, 0x34, 0x12] = .ok (.jump 0x1234) ∧ decode [0x41, 0x03] = .ok (.push .x3) ∧
  decode [0x60, 0x01, 0xFF, 0x00] = .ok (.movRegImm .x1 0x00FF) ∧ decode [0x80, 0x02, 0x01] = .ok (.add .x2 .x1) ∧
  decode [0xA0, 0x00, 0x00, 0x01] = .ok (.movRegMem .x0 0x0100) ∧
  decode [0xC0, 0x00, 0x01, 0x00] = .ok (.movMemReg 0x0100 .x0)

/-- Decoding the bytes of any instruction, whatever follows them, gives that instruction. -/
def Obligations.DecodeInvertsEncode : Prop :=
  ∀ (i : Instr) (rest : List Byte), decode (encode i ++ rest) = .ok i

/-- Encoding a decoded instruction gives the bytes it was decoded from (R67: the identity on legal instructions). -/
def Obligations.EncodeInvertsDecode : Prop :=
  ∀ (bs : List Byte) (i : Instr), decode bs = .ok i → i.size ≤ bs.length ∧ encode i = bs.take i.size

/-- R53: the length of an instruction is a function of the top three bits of its first byte, and every opcode byte of
class 7 is illegal. -/
def Obligations.LengthFromClassBits : Prop :=
  (∀ (op : Byte) (rest : List Byte) (i : Instr), decode (op :: rest) = .ok i →
    [1, 3, 2, 4, 3, 4, 4][op.toNat / 32]? = some (encode i).length) ∧
  (∀ (op : Byte) (rest : List Byte), 0xE0 ≤ op.toNat → decode (op :: rest) = .error (.illegalOpcode op))

/-- R59: the bytes no instruction has are exactly those of the listed ranges. The ranges follow from decisions D1, D2, D27,
D28. -/
def Obligations.IllegalOpcodesAreTheListedBytes : Prop :=
  ∀ (op : Byte) (rest : List Byte),
    decode (op :: rest) = .error (.illegalOpcode op) ↔
      (0x05 ≤ op.toNat ∧ op.toNat ≤ 0x1F) ∨ (0x29 ≤ op.toNat ∧ op.toNat ≤ 0x3F) ∨ (0x43 ≤ op.toNat ∧ op.toNat ≤ 0x5F) ∨
      (0x61 ≤ op.toNat ∧ op.toNat ≤ 0x7F) ∨ (0x91 ≤ op.toNat ∧ op.toNat ≤ 0x9F) ∨ (0xA2 ≤ op.toNat ∧ op.toNat ≤ 0xBF) ∨
      (0xC2 ≤ op.toNat ∧ op.toNat ≤ 0xDF) ∨ 0xE0 ≤ op.toNat

/-! ### The step -/

/-- R70: where the bytes at PC decode to an instruction, a step of a running machine with PC in the executable region is
that instruction's `exec`, which holds its advance and count. -/
def Obligations.StepRunsDecodedInstruction : Prop :=
  ∀ (s : State) (i : Instr), Fetching s → decode (fetchBytes s) = .ok i → step s = exec i s

/-- R47, R73, R74: where an instruction's encoding is what memory holds from PC on, the step runs that instruction. -/
def Obligations.StepRunsStoredInstruction : Prop :=
  ∀ (s : State) (i : Instr), Fetching s → (s.reg .pc).toNat + i.size ≤ s.cfg.memSize →
    (∀ k, k < i.size → (encode i)[k]? = some (s.byteAt ((s.reg .pc).toNat + k))) → step s = exec i s

/-- R72, R161: a running machine whose PC is outside the executable region takes `OutOfBoundsExecution` and fetches nothing.
That nothing else changes is decision D25. -/
def Obligations.OutOfBoundsExecutionStops : Prop :=
  ∀ s : State, s.engine = .running → (s.reg .pc).toNat < s.cfg.staticSize ∨ s.cfg.programSize ≤ (s.reg .pc).toNat →
    ∃ t, step s = .next t ∧ TookFault s t (.outOfBoundsExecution (s.reg .pc))

/-- R73, R162: a byte at PC that is no opcode takes `IllegalOpcode` (the ranges: decisions D1, D2, D28; nothing else
changes: D25). -/
def Obligations.IllegalOpcodeStops : Prop :=
  ∀ (s : State) (op : Byte), Fetching s → (s.reg .pc).toNat < s.cfg.memSize → s.byteAt (s.reg .pc).toNat = op →
    (∀ i : Instr, (encode i).head? ≠ some op) →
    ∃ t, step s = .next t ∧ TookFault s t (.illegalOpcode op (s.reg .pc))

/-- R74, R165: an instruction whose operand bytes reach beyond the buffer takes `OutOfBoundsAccess` at PC (decisions D12,
D24, D25). -/
def Obligations.MissingOperandBytesStop : Prop :=
  ∀ (s : State) (i : Instr), Fetching s → (s.reg .pc).toNat < s.cfg.memSize →
    (encode i).head? = some (s.byteAt (s.reg .pc).toNat) → s.cfg.memSize < (s.reg .pc).toNat + i.size →
    ∃ t, step s = .next t ∧ TookFault s t (.outOfBoundsAccess (s.reg .pc))

/-- R75, R163, R168: a register-id field above 11 takes `IllegalRegister`, `rd` before `rs`, in every class that has one
(decisions D4, D25). The legal opcode of each class is given by the first byte of an instruction of that class. -/
def Obligations.IllegalRegisterStops : Prop :=
  ∀ (s : State) (i : Instr), Fetching s → (s.reg .pc).toNat + i.size ≤ s.cfg.memSize →
    (encode i).head? = some (s.byteAt (s.reg .pc).toNat) →
    (i.shape = .reg ∨ i.shape = .regImm ∨ i.shape = .regReg ∨ i.shape = .regMem →
      11 < (s.byteAt ((s.reg .pc).toNat + 1)).toNat →
      ∃ t, step s = .next t ∧ TookFault s t (.illegalRegister (s.byteAt ((s.reg .pc).toNat + 1)) (s.reg .pc))) ∧
    (i.shape = .regReg → (s.byteAt ((s.reg .pc).toNat + 1)).toNat ≤ 11 →
      11 < (s.byteAt ((s.reg .pc).toNat + 2)).toNat →
      ∃ t, step s = .next t ∧ TookFault s t (.illegalRegister (s.byteAt ((s.reg .pc).toNat + 2)) (s.reg .pc))) ∧
    (i.shape = .memReg → 11 < (s.byteAt ((s.reg .pc).toNat + 3)).toNat →
      ∃ t, step s = .next t ∧ TookFault s t (.illegalRegister (s.byteAt ((s.reg .pc).toNat + 3)) (s.reg .pc)))

/-- R22, R71, R176: a machine that is not running stays exactly as it is, for any number of steps (`Faulted` as a state:
decision D25). -/
def Obligations.HaltedAndFaultedAreTerminal : Prop :=
  ∀ (s : State) (n : Nat), s.engine ≠ .running → Host.Core.run Sys2Proof.core n s = .next s

/-- Every state has a next state; no step is refused and none stops the model. 93_implementation_defined.md part 1 says so of
every reachable state of a well-formed configuration (U13). That it holds of an ill-formed one too is the model's choice,
log 9, and so is that a fatal error is a next state, log 4. -/
def Obligations.EveryStepAnswersNextState : Prop :=
  ∀ s : State, ∃ t, step s = .next t

/-- R160: a step that ends in `Faulted` changed nothing else (decision D25). -/
def Obligations.FatalErrorsArePrecise : Prop :=
  ∀ (s t : State) (c : Cause), s.engine = .running → step s = .next t → t.engine = .faulted c → TookFault s t c

/-- R23, R78: a step of a running machine is counted exactly when it raises no fatal error (decision D26). -/
def Obligations.StepCountsExecutedInstructions : Prop :=
  ∀ s t : State, s.engine = .running → step s = .next t →
    (t.BadEnd → t.icount = s.icount) ∧ (¬t.BadEnd → t.icount = s.icount + 1)

/-- R163 to R165: the fatal errors an instruction itself can raise, and by which instructions (decisions D12, D16). -/
def Obligations.FatalErrorsOfExecution : Prop :=
  ∀ (i : Instr) (s t : State) (c : Cause), s.engine = .running → exec i s = .next t → t.engine = .faulted c →
    (c = .divideByZero (s.reg .pc) ∧ ∃ rd rs, (i = .div rd rs ∨ i = .divs rd rs) ∧ s.reg rs = 0) ∨
    (∃ a, c = .outOfBoundsAccess a ∧ ¬WordFits s a ∧
      ((storeAddressOf s i = some a) ∨ (∃ r, i = .movRegMem r a) ∨ (∃ r, i = .cmpRegMem r a) ∨
        (∃ r, i = .cmpMemReg a r) ∨ (a = s.reg .sp - 2 ∧ ((∃ r, i = .pop r) ∨ i = .dup ∨ i = .cmp)) ∨
        (a = s.reg .sp - 4 ∧ i = .cmp)))

/-! ### Whole-machine rules -/

/-- Every step keeps the invariant: the configuration well formed (R189), the memory in its canonical form and inside the
buffer (R30). -/
def Obligations.StepKeepsInvariant : Prop :=
  ∀ s t : State, s.Inv → step s = .next t → t.Inv

/-- The reset state meets the invariant, runs, and holds the values of R181 to R183 for the empty image (the empty image and
its sizes are the model's choices, logs 1 and 2; the values are decision D10). -/
def Obligations.ResetStateValues : Prop :=
  State.reset.Inv ∧ State.reset.engine = .running ∧ State.reset.icount = 0 ∧ (∀ a, State.reset.byteAt a = 0) ∧
  (∀ r, r ≠ .pc → r ≠ .sp → r ≠ .bp → State.reset.reg r = 0) ∧
  (State.reset.reg .pc).toNat = State.reset.cfg.staticSize ∧
  (State.reset.reg .sp).toNat = State.reset.cfg.programSize ∧ (State.reset.reg .bp).toNat = State.reset.cfg.programSize

/-- R180: no step changes the configuration, and neither does any run. -/
def Obligations.ConfigurationIsFixed : Prop :=
  ∀ s t : State, Reaches s t → t.cfg = s.cfg

/-- R37, R43, R172: with `PROGRAM_READONLY`, no run changes a byte of the program segment (a write that straddles its end
included, decision D23). -/
def Obligations.ReadOnlyProgramNeverChanges : Prop :=
  ∀ s t : State, s.cfg.programReadonly = true → Reaches s t →
    ∀ a, a < s.cfg.programSize → t.byteAt a = s.byteAt a

/-- R18, R12: the only ways a step changes a register other than PC: an instruction names it as its destination, or writes it
implicitly (the stack pointer by the stack family and RET, SP and BP by RET, BP and the link registers by CALL, FLAGS by
the compare family). -/
def Obligations.OnlyListedInstructionsWriteRegister : Prop :=
  ∀ (s t : State) (r : Reg), s.engine = .running → step s = .next t → r ≠ .pc → t.reg r ≠ s.reg r →
    ∃ i, decode (fetchBytes s) = .ok i ∧ (destOf i = some r ∨ r ∈ implicitWritesOf s.cfg i)

/-- R24, R41: the only bytes a step changes are the two of the word an instruction stores (PUSH, PUSH_IMM, DUP at SP,
MOV_MEM_REG at its address). -/
def Obligations.OnlyStoresChangeMemory : Prop :=
  ∀ (s t : State) (x : Nat), step s = .next t → t.byteAt x ≠ s.byteAt x →
    ∃ i a, decode (fetchBytes s) = .ok i ∧ storeAddressOf s i = some a ∧ (x = a.toNat ∨ x = a.toNat + 1)

/-- R22, R166, R176: the only ways a running machine enters `Halted`: HALT, or a store into a read-only program segment, which
leaves memory as it was. -/
def Obligations.HaltedOnlyByHaltOrIllegalWrite : Prop :=
  ∀ s t : State, s.engine = .running → step s = .next t → t.engine = .halted →
    ∃ i, decode (fetchBytes s) = .ok i ∧ SameBytes s t ∧
      (i = .halt ∨ ∃ a, storeAddressOf s i = some a ∧ WriteBlocked s a)

/-! ### Reset and loading -/

/-- R188, R189: the images and parameters the loader accepts (the checks are decision D11). -/
def Obligations.LoaderAcceptsExactly : Prop :=
  ∀ (p : HostParams) (image : List Byte),
    (∃ s, loadImage p image = .ok s) ↔
      p.memSize ≤ 65536 ∧
      (image.take 4 = [0xBE, 0xEF, 0xCA, 0xFE] →
        13 ≤ image.length ∧ image[6]? = some 0 ∧
        (image.getD 11 0).toNat + 256 * (image.getD 12 0).toNat ≤ image.length - 13 ∧
        image.length - 13 + p.stackSize ≤ p.memSize) ∧
      (image.take 4 ≠ [0xBE, 0xEF, 0xCA, 0xFE] → image.length + p.stackSize ≤ p.memSize)

/-- R4, R180 to R183, R188: what a loaded image leaves in the machine: the registers, the memory, and every field of the
configuration, each one of the host's parameters or from the image (decisions D10, D11, D19, D21, D31). For a program of
65536 bytes STACK_OFFSET is 65536, which no register holds; that SP and BP are then 0 is the model's choice, log 12. -/
def Obligations.LoadedImageState : Prop :=
  ∀ (p : HostParams) (image : List Byte) (s : State), loadImage p image = .ok s →
    s.engine = .running ∧ s.icount = 0 ∧
    (∀ r, r ≠ .pc → r ≠ .sp → r ≠ .bp → s.reg r = 0) ∧
    s.reg .pc = BitVec.ofNat 16 s.cfg.staticSize ∧ s.reg .sp = BitVec.ofNat 16 s.cfg.programSize ∧
    s.reg .bp = BitVec.ofNat 16 s.cfg.programSize ∧
    s.cfg.stackSize = p.stackSize ∧ s.cfg.memSize = p.memSize ∧ s.cfg.programReadonly = p.programReadonly ∧
    s.cfg.regMemLeft = p.regMemLeft ∧ s.cfg.memRegLeft = p.memRegLeft ∧
    s.cfg.linkSp = p.linkSp ∧ s.cfg.linkBp = p.linkBp ∧ s.cfg.linkRa = p.linkRa ∧
    (image.take 4 = [0xBE, 0xEF, 0xCA, 0xFE] →
      s.cfg.staticSize = (image.getD 11 0).toNat + 256 * (image.getD 12 0).toNat ∧
      s.cfg.programSize = image.length - 13 ∧ ∀ a, s.byteAt a = image.getD (13 + a) 0) ∧
    (image.take 4 ≠ [0xBE, 0xEF, 0xCA, 0xFE] →
      s.cfg.staticSize = 0 ∧ s.cfg.programSize = image.length ∧ ∀ a, s.byteAt a = image.getD a 0)

/-- R184, R189: a loaded image meets the invariant (its link registers well formed), and its first step fetches at the first
code byte where it has code. -/
def Obligations.LoadedImageMeetsInvariant : Prop :=
  ∀ (p : HostParams) (image : List Byte) (s : State), loadImage p image = .ok s → s.cfg.linksOk = true →
    s.Inv ∧ (s.cfg.staticSize < s.cfg.programSize → Fetching s ∧ (s.reg .pc).toNat = s.cfg.staticSize)

/-! ### The address translator -/

/-- R35, R36, R37: each of the five parts of the address space is its range of addresses, and the three checks are what the
parts say. -/
def Obligations.SegmentsDecideAccess : Prop :=
  ∀ (c : Config) (a : Word), c.wf = true →
    (executable c a = true ↔ segment c a = .programCode) ∧
    (inRange c a = true ↔ segment c a ≠ .outside) ∧
    (writable c a = true ↔
      segment c a ≠ .outside ∧
        ¬(c.programReadonly = true ∧ (segment c a = .programStatic ∨ segment c a = .programCode))) ∧
    (segment c a = .programStatic ↔ a.toNat < c.staticSize) ∧
    (segment c a = .programCode ↔ c.staticSize ≤ a.toNat ∧ a.toNat < c.programSize) ∧
    (segment c a = .stack ↔ c.programSize ≤ a.toNat ∧ a.toNat < c.programSize + c.stackSize) ∧
    (segment c a = .heap ↔ c.programSize + c.stackSize ≤ a.toNat ∧ a.toNat < c.memSize) ∧
    (segment c a = .outside ↔ c.memSize ≤ a.toNat)

/-! ### Integer arithmetic -/

/-- R81, R82, R83: ADD, SUB and MUL complete with the exact result of the unsigned views modulo 65536 (wrapping: decision
D14). -/
def Obligations.UnsignedAddSubMulResults : Prop :=
  ∀ (s : State) (rd rs : Reg),
    (∃ t, exec (.add rd rs) s = .next t ∧
      WroteReg s t 3 rd (BitVec.ofNat 16 ((s.reg rd).toNat + (s.reg rs).toNat))) ∧
    (∃ t, exec (.sub rd rs) s = .next t ∧
      WroteReg s t 3 rd (BitVec.ofNat 16 (65536 + (s.reg rd).toNat - (s.reg rs).toNat))) ∧
    (∃ t, exec (.mul rd rs) s = .next t ∧
      WroteReg s t 3 rd (BitVec.ofNat 16 ((s.reg rd).toNat * (s.reg rs).toNat)))

/-- R85, R86, R87, R89: ADDS, SUBS and MULS complete with the exact result of the signed views narrowed to 16 bits, and that
is what their unsigned twins do on every pair of operands (two's complement, wrapping: decision D14). -/
def Obligations.SignedAddSubMulResults : Prop :=
  ∀ (s : State) (rd rs : Reg),
    (∃ t, exec (.adds rd rs) s = .next t ∧ exec (.add rd rs) s = .next t ∧
      WroteReg s t 3 rd (trunc16 ((s.reg rd).toInt + (s.reg rs).toInt))) ∧
    (∃ t, exec (.subs rd rs) s = .next t ∧ exec (.sub rd rs) s = .next t ∧
      WroteReg s t 3 rd (trunc16 ((s.reg rd).toInt - (s.reg rs).toInt))) ∧
    (∃ t, exec (.muls rd rs) s = .next t ∧ exec (.mul rd rs) s = .next t ∧
      WroteReg s t 3 rd (trunc16 ((s.reg rd).toInt * (s.reg rs).toInt)))

/-- R84, R89: DIV by a non-zero word completes with the quotient `q` of `u(a) = q * u(b) + rem`, `0 <= rem < u(b)` (floor:
decision D15). -/
def Obligations.DivResult : Prop :=
  ∀ (s : State) (rd rs : Reg), s.reg rs ≠ 0 →
    ∃ t v rem, exec (.div rd rs) s = .next t ∧ WroteReg s t 3 rd v ∧
      (s.reg rd).toNat = v.toNat * (s.reg rs).toNat + rem ∧ rem < (s.reg rs).toNat

/-- R88, R89: DIVS by a non-zero word completes with `trunc16(q)`, where `abs(q) = floor(abs(s(a)) / abs(s(b)))` and a
non-zero `q` has the sign of the product of the operands; `0x8000 / 0xFFFF` is `0x8000` (decision D15). -/
def Obligations.DivsResult : Prop :=
  ∀ (s : State) (rd rs : Reg), s.reg rs ≠ 0 →
    ∃ t q, exec (.divs rd rs) s = .next t ∧ WroteReg s t 3 rd (trunc16 q) ∧
      q.natAbs = (s.reg rd).toInt.natAbs / (s.reg rs).toInt.natAbs ∧
      (q ≠ 0 → q.sign = (s.reg rd).toInt.sign * (s.reg rs).toInt.sign) ∧
      (s.reg rd = 0x8000 → s.reg rs = 0xFFFF → trunc16 q = 0x8000)

/-- R84, R88, R164: DIV and DIVS by zero take `DivideByZero` and change nothing (decisions D16, D25). -/
def Obligations.DivideByZeroStops : Prop :=
  ∀ (s : State) (rd rs : Reg), s.reg rs = 0 →
    (∃ t, exec (.div rd rs) s = .next t ∧ TookFault s t (.divideByZero (s.reg .pc))) ∧
    (∃ t, exec (.divs rd rs) s = .next t ∧ TookFault s t (.divideByZero (s.reg .pc)))

/-- R99, R100, R101: OR, XOR and AND, bit by bit, with their encodings. -/
def Obligations.BitwiseResults : Prop :=
  ∀ (s : State) (rd rs : Reg),
    encode (.or rd rs) = [0x8C, rd.id, rs.id] ∧ encode (.xor rd rs) = [0x8D, rd.id, rs.id] ∧
    encode (.and rd rs) = [0x8E, rd.id, rs.id] ∧
    (∃ t v, exec (.or rd rs) s = .next t ∧ WroteReg s t 3 rd v ∧
      ∀ i, i < 16 → v.getLsbD i = ((s.reg rd).getLsbD i || (s.reg rs).getLsbD i)) ∧
    (∃ t v, exec (.xor rd rs) s = .next t ∧ WroteReg s t 3 rd v ∧
      ∀ i, i < 16 → v.getLsbD i = ((s.reg rd).getLsbD i ^^ (s.reg rs).getLsbD i)) ∧
    (∃ t v, exec (.and rd rs) s = .next t ∧ WroteReg s t 3 rd v ∧
      ∀ i, i < 16 → v.getLsbD i = ((s.reg rd).getLsbD i && (s.reg rs).getLsbD i))

/-- R102: NOT inverts every bit of its one register; a bad register id is refused at decode. -/
def Obligations.NotResult : Prop :=
  (∀ r : Reg, encode (.not r) = [0x40, r.id]) ∧
  (∀ (b : Byte) (rest : List Byte), 11 < b.toNat → decode (0x40 :: b :: rest) = .error (.illegalRegister b)) ∧
  (∀ (s : State) (r : Reg), ∃ t v, exec (.not r) s = .next t ∧ WroteReg s t 2 r v ∧
    ∀ i, i < 16 → v.getLsbD i = !(s.reg r).getLsbD i)

/-! ### Half-precision arithmetic -/

/-- R93: `round16` rounds to the nearest binary16 value, a tie to the even fraction, and to infinity from 65520 on
(round to nearest even: decision D17 and general knowledge, log 19). -/
def Obligations.RoundingIsNearestEven : Prop :=
  ∀ (neg : Bool) (num den : Nat), 0 < num → 0 < den → IsRounded neg num den (round16 neg num den)

/-- R94, R95: ADDF completes with the table's result on every pair of operands; a NaN result is some NaN pattern (log 6;
binary16 is general knowledge of the spec, log 19). -/
def Obligations.AddfResult : Prop :=
  ∀ (s : State) (rd rs : Reg) (a b : Word), s.reg rd = a → s.reg rs = b →
    ∃ t v, exec (.addf rd rs) s = .next t ∧ WroteReg s t 3 rd v ∧
      (isNaN a = true ∨ isNaN b = true → isNaN v = true) ∧
      (isInfinite a = true → isInfinite b = true → a ≠ b → isNaN v = true) ∧
      (isInfinite a = true → a = b ∨ isFinite b = true → v = a) ∧
      (isFinite a = true → isInfinite b = true → v = b) ∧
      (isFinite a = true → isFinite b = true →
        (valueUnits a + valueUnits b = 0 → v = if a = 0x8000 ∧ b = 0x8000 then 0x8000 else 0x0000) ∧
        (valueUnits a + valueUnits b ≠ 0 →
          v = round16 (decide (valueUnits a + valueUnits b < 0)) (valueUnits a + valueUnits b).natAbs (2 ^ 24)))

/-- R94, R96: SUBF completes with the result of the rule on every pair of operands (log 6, log 19). -/
def Obligations.SubfResult : Prop :=
  ∀ (s : State) (rd rs : Reg) (a b : Word), s.reg rd = a → s.reg rs = b →
    ∃ t v, exec (.subf rd rs) s = .next t ∧ WroteReg s t 3 rd v ∧
      (isNaN a = true ∨ isNaN b = true → isNaN v = true) ∧
      (isInfinite a = true → a = b → isNaN v = true) ∧
      (isInfinite a = true → isFinite b = true ∨ (isInfinite b = true ∧ a ≠ b) → v = a) ∧
      (isFinite a = true → isInfinite b = true → v = b ^^^ 0x8000) ∧
      (isFinite a = true → isFinite b = true →
        (valueUnits a - valueUnits b = 0 → v = if a = 0x8000 ∧ b = 0x0000 then 0x8000 else 0x0000) ∧
        (valueUnits a - valueUnits b ≠ 0 →
          v = round16 (decide (valueUnits a - valueUnits b < 0)) (valueUnits a - valueUnits b).natAbs (2 ^ 24)))

/-- R94, R97: MULF completes with the table's result on every pair of operands (log 6, log 19). -/
def Obligations.MulfResult : Prop :=
  ∀ (s : State) (rd rs : Reg) (a b : Word), s.reg rd = a → s.reg rs = b →
    ∃ t v, exec (.mulf rd rs) s = .next t ∧ WroteReg s t 3 rd v ∧
      (isNaN a = true ∨ isNaN b = true → isNaN v = true) ∧
      (isZero a = true → isInfinite b = true → isNaN v = true) ∧
      (isInfinite a = true → isZero b = true → isNaN v = true) ∧
      (isInfinite a = true → isNaN b = false → isZero b = false → v = halfInf (halfSign a ^^ halfSign b)) ∧
      (isInfinite b = true → isNaN a = false → isZero a = false → v = halfInf (halfSign a ^^ halfSign b)) ∧
      (isFinite a = true → isFinite b = true →
        (isZero a = true ∨ isZero b = true → v = halfZero (halfSign a ^^ halfSign b)) ∧
        (isZero a = false → isZero b = false →
          v = round16 (halfSign a ^^ halfSign b) (magnitude a * magnitude b) (2 ^ 48)))

/-- R94, R98: DIVF completes with the table's result on every pair of operands; a zero divisor is no fatal error (log 6,
log 19). -/
def Obligations.DivfResult : Prop :=
  ∀ (s : State) (rd rs : Reg) (a b : Word), s.reg rd = a → s.reg rs = b →
    ∃ t v, exec (.divf rd rs) s = .next t ∧ WroteReg s t 3 rd v ∧
      (isNaN a = true ∨ isNaN b = true → isNaN v = true) ∧
      (isZero a = true → isZero b = true → isNaN v = true) ∧
      (isInfinite a = true → isInfinite b = true → isNaN v = true) ∧
      (isInfinite a = true → isFinite b = true → v = halfInf (halfSign a ^^ halfSign b)) ∧
      (isFinite a = true → isInfinite b = true → v = halfZero (halfSign a ^^ halfSign b)) ∧
      (isFinite a = true → isZero a = false → isZero b = true → v = halfInf (halfSign a ^^ halfSign b)) ∧
      (isZero a = true → isFinite b = true → isZero b = false → v = halfZero (halfSign a ^^ halfSign b)) ∧
      (isFinite a = true → isFinite b = true → isZero a = false → isZero b = false →
        v = round16 (halfSign a ^^ halfSign b) (magnitude a) (magnitude b))

/-- R95: "Adding a zero of either sign to a non-zero finite value returns that value unchanged", on either side. -/
def Obligations.AddfOfZeroKeepsValue : Prop :=
  ∀ (s : State) (rd rs : Reg),
    (isFinite (s.reg rd) = true → isZero (s.reg rd) = false → isZero (s.reg rs) = true →
      ∃ t, exec (.addf rd rs) s = .next t ∧ WroteReg s t 3 rd (s.reg rd)) ∧
    (isZero (s.reg rd) = true → isFinite (s.reg rs) = true → isZero (s.reg rs) = false →
      ∃ t, exec (.addf rd rs) s = .next t ∧ WroteReg s t 3 rd (s.reg rs))

/-! ### The stack -/

/-- R110, R111, R112: a push into writable memory stores its word at SP, low byte first, moves SP up by 2, and changes
nothing else but PC and the count. PUSH stores the register as it was before (decisions D8, D9). -/
def Obligations.PushStoresWord : Prop :=
  ∀ (s : State) (r : Reg) (v : Word), s.mem.wf = true → WordFits s (s.reg .sp) → ¬WriteBlocked s (s.reg .sp) →
    (∃ t, exec (.push r) s = .next t ∧ HoldsWord t (s.reg .sp) (s.reg r) ∧ SameBytesButWord s t (s.reg .sp) ∧
      t.reg .sp = s.reg .sp + 2 ∧ t.reg .pc = s.reg .pc + 2 ∧ SameRegsBut s t [.sp, .pc] ∧ t.engine = s.engine ∧
      t.icount = s.icount + 1) ∧
    (∃ t, exec (.pushImm v) s = .next t ∧ HoldsWord t (s.reg .sp) v ∧ SameBytesButWord s t (s.reg .sp) ∧
      t.reg .sp = s.reg .sp + 2 ∧ t.reg .pc = s.reg .pc + 3 ∧ SameRegsBut s t [.sp, .pc] ∧ t.engine = s.engine ∧
      t.icount = s.icount + 1)

/-- R110, R113: a pop reads the word two below SP, moves SP down to it, and writes the register last, so that `POP $RSP`
leaves SP at the word and `POP $RPC` jumps to the word plus 2 (decisions D8, D9). -/
def Obligations.PopTakesWord : Prop :=
  ∀ (s : State) (r : Reg), WordFits s (s.reg .sp - 2) →
    ∃ t v, exec (.pop r) s = .next t ∧
      v.toNat = (s.byteAt (s.reg .sp - 2).toNat).toNat + 256 * (s.byteAt ((s.reg .sp - 2).toNat + 1)).toNat ∧
      (r ≠ .pc → t.reg r = v) ∧ (r ≠ .sp → t.reg .sp = s.reg .sp - 2) ∧
      t.reg .pc = (if r = .pc then v else s.reg .pc) + 2 ∧ SameRegsBut s t [r, .sp, .pc] ∧ SameBytes s t ∧
      t.engine = s.engine ∧ t.icount = s.icount + 1

/-- R114: DUP pushes a copy of the word directly below SP (decisions D8, D22). -/
def Obligations.DupPushesCopy : Prop :=
  ∀ (s : State) (v : Word), s.mem.wf = true → HoldsWord s (s.reg .sp - 2) v → WordFits s (s.reg .sp - 2) →
    WordFits s (s.reg .sp) → ¬WriteBlocked s (s.reg .sp) →
    ∃ t, exec .dup s = .next t ∧ HoldsWord t (s.reg .sp) v ∧ SameBytesButWord s t (s.reg .sp) ∧
      t.reg .sp = s.reg .sp + 2 ∧ t.reg .pc = s.reg .pc + 1 ∧ SameRegsBut s t [.sp, .pc] ∧ t.engine = s.engine ∧
      t.icount = s.icount + 1

/-- R113, the source's property: a PUSH of one register and then a POP of another restore SP and copy the register. -/
def Obligations.PushThenPopCopiesRegister : Prop :=
  ∀ (s : State) (r q : Reg), s.mem.wf = true → WordFits s (s.reg .sp) → ¬WriteBlocked s (s.reg .sp) →
    ∃ t u, exec (.push r) s = .next t ∧ exec (.pop q) t = .next u ∧ (q ≠ .pc → u.reg q = s.reg r) ∧
      (q ≠ .sp → u.reg .sp = s.reg .sp) ∧ SameRegsBut s u [q, .sp, .pc]

/-- R43, R110, R124, R166: a store into a read-only program segment halts the machine with nothing written; SP, PC and the
count move as for a performed store (decision D23). -/
def Obligations.IllegalWriteHalts : Prop :=
  ∀ (s : State) (r : Reg) (v a : Word),
    (WordFits s (s.reg .sp) → WriteBlocked s (s.reg .sp) →
      (∃ t, exec (.push r) s = .next t ∧ t.engine = .halted ∧ SameBytes s t ∧ t.reg .sp = s.reg .sp + 2 ∧
        t.reg .pc = s.reg .pc + 2 ∧ SameRegsBut s t [.sp, .pc] ∧ t.icount = s.icount + 1) ∧
      (∃ t, exec (.pushImm v) s = .next t ∧ t.engine = .halted ∧ SameBytes s t ∧ t.reg .sp = s.reg .sp + 2 ∧
        t.reg .pc = s.reg .pc + 3 ∧ SameRegsBut s t [.sp, .pc] ∧ t.icount = s.icount + 1) ∧
      (WordFits s (s.reg .sp - 2) →
        ∃ t, exec .dup s = .next t ∧ t.engine = .halted ∧ SameBytes s t ∧ t.reg .sp = s.reg .sp + 2 ∧
          t.reg .pc = s.reg .pc + 1 ∧ SameRegsBut s t [.sp, .pc] ∧ t.icount = s.icount + 1)) ∧
    (WordFits s a → WriteBlocked s a →
      ∃ t, exec (.movMemReg a r) s = .next t ∧ t.engine = .halted ∧ SameBytes s t ∧ t.reg .pc = s.reg .pc + 4 ∧
        SameRegsBut s t [.pc] ∧ t.icount = s.icount + 1)

/-- R42, R43, R165: a data or stack access that reaches beyond the buffer takes `OutOfBoundsAccess` at its address and
changes nothing; DUP and CMP check the lower address first (decisions D12, D25). -/
def Obligations.OutOfBoundsAccessStops : Prop :=
  ∀ (s : State) (r : Reg) (v a : Word),
    (¬WordFits s (s.reg .sp) →
      (∃ t, exec (.push r) s = .next t ∧ TookFault s t (.outOfBoundsAccess (s.reg .sp))) ∧
      (∃ t, exec (.pushImm v) s = .next t ∧ TookFault s t (.outOfBoundsAccess (s.reg .sp))) ∧
      (WordFits s (s.reg .sp - 2) →
        ∃ t, exec .dup s = .next t ∧ TookFault s t (.outOfBoundsAccess (s.reg .sp)))) ∧
    (¬WordFits s (s.reg .sp - 2) →
      (∃ t, exec (.pop r) s = .next t ∧ TookFault s t (.outOfBoundsAccess (s.reg .sp - 2))) ∧
      (∃ t, exec .dup s = .next t ∧ TookFault s t (.outOfBoundsAccess (s.reg .sp - 2))) ∧
      (WordFits s (s.reg .sp - 4) →
        ∃ t, exec .cmp s = .next t ∧ TookFault s t (.outOfBoundsAccess (s.reg .sp - 2)))) ∧
    (¬WordFits s (s.reg .sp - 4) →
      ∃ t, exec .cmp s = .next t ∧ TookFault s t (.outOfBoundsAccess (s.reg .sp - 4))) ∧
    (¬WordFits s a →
      (∃ t, exec (.movRegMem r a) s = .next t ∧ TookFault s t (.outOfBoundsAccess a)) ∧
      (∃ t, exec (.movMemReg a r) s = .next t ∧ TookFault s t (.outOfBoundsAccess a)) ∧
      (∃ t, exec (.cmpRegMem r a) s = .next t ∧ TookFault s t (.outOfBoundsAccess a)) ∧
      (∃ t, exec (.cmpMemReg a r) s = .next t ∧ TookFault s t (.outOfBoundsAccess a)))

/-! ### Moves -/

/-- R121: MOV_REG_IMM writes its immediate to any register, PC, SP, BP and FLAGS among them. -/
def Obligations.MovRegImmResult : Prop :=
  (∀ (r : Reg) (imm : Word), ∃ lo hi : Byte, encode (.movRegImm r imm) = [0x60, r.id, lo, hi] ∧
    imm.toNat = lo.toNat + 256 * hi.toNat) ∧
  (∀ (b lo hi : Byte) (rest : List Byte), 11 < b.toNat →
    decode (0x60 :: b :: lo :: hi :: rest) = .error (.illegalRegister b)) ∧
  (∀ (s : State) (r : Reg) (imm : Word), ∃ t, exec (.movRegImm r imm) s = .next t ∧ WroteReg s t 4 r imm)

/-- R122: MOV_REG_REG copies any register to any register, PC read as this instruction's own address. -/
def Obligations.MovRegRegResult : Prop :=
  (∀ rd rs : Reg, encode (.movRegReg rd rs) = [0x8F, rd.id, rs.id]) ∧
  (∀ (d b : Byte) (rest : List Byte), 11 < d.toNat → decode (0x8F :: d :: b :: rest) = .error (.illegalRegister d)) ∧
  (∀ (rd : Reg) (b : Byte) (rest : List Byte), 11 < b.toNat →
    decode (0x8F :: rd.id :: b :: rest) = .error (.illegalRegister b)) ∧
  (∀ (s : State) (rd rs : Reg), ∃ t, exec (.movRegReg rd rs) s = .next t ∧ WroteReg s t 3 rd (s.reg rs))

/-- R123: MOV_REG_MEM loads the word at its address from any segment, or takes `OutOfBoundsAccess` with nothing changed. -/
def Obligations.LoadResult : Prop :=
  (∀ (r : Reg) (a : Word), ∃ lo hi : Byte, encode (.movRegMem r a) = [0xA0, r.id, lo, hi] ∧
    a.toNat = lo.toNat + 256 * hi.toNat) ∧
  (∀ (b lo hi : Byte) (rest : List Byte), 11 < b.toNat →
    decode (0xA0 :: b :: lo :: hi :: rest) = .error (.illegalRegister b)) ∧
  (∀ (s : State) (r : Reg) (a : Word),
    (WordFits s a → ∃ t v, exec (.movRegMem r a) s = .next t ∧ WroteReg s t 4 r v ∧
      v.toNat = (s.byteAt a.toNat).toNat + 256 * (s.byteAt (a.toNat + 1)).toNat) ∧
    (¬WordFits s a → ∃ t, exec (.movRegMem r a) s = .next t ∧ TookFault s t (.outOfBoundsAccess a)))

/-- R124: MOV_MEM_REG into writable memory stores the register's word at its address, low byte first, at any alignment, and
changes nothing else but PC and the count (decisions D8, D13). -/
def Obligations.StoreResult : Prop :=
  ∀ (s : State) (a : Word) (r : Reg), s.mem.wf = true → WordFits s a → ¬WriteBlocked s a →
    ∃ t, exec (.movMemReg a r) s = .next t ∧ HoldsWord t a (s.reg r) ∧ SameBytesButWord s t a ∧
      t.reg .pc = s.reg .pc + 4 ∧ SameRegsBut s t [.pc] ∧ t.engine = s.engine ∧ t.icount = s.icount + 1

/-! ### Compares -/

/-- R130, R132: CMP_REG_REG compares its first register with its second (flag positions, bits 15:3 kept: decisions D6,
D7). -/
def Obligations.CmpRegRegResult : Prop :=
  ∀ (s : State) (rd rs : Reg), ∃ t, exec (.cmpRegReg rd rs) s = .next t ∧ Compared s t 3 (s.reg rd) (s.reg rs)

/-- R130, R131: CMP compares the deeper with the top word of the stack and pops nothing (decisions D6, D7, D18). -/
def Obligations.CmpStackResult : Prop :=
  ∀ (s : State) (a b : Word), WordFits s (s.reg .sp - 4) → WordFits s (s.reg .sp - 2) →
    HoldsWord s (s.reg .sp - 4) a → HoldsWord s (s.reg .sp - 2) b →
    ∃ t, exec .cmp s = .next t ∧ Compared s t 1 a b

/-- R130, R133, R134: CMP_REG_MEM and CMP_MEM_REG compare a register with a memory word in the order `CMP_MEM_ORDER` says,
under all four settings (decisions D6, D7, D19; log 21). -/
def Obligations.CmpMemoryResults : Prop :=
  ∀ (s : State) (r : Reg) (a m : Word), WordFits s a → HoldsWord s a m →
    (∃ t, exec (.cmpRegMem r a) s = .next t ∧
      (s.cfg.regMemLeft = .register → Compared s t 4 (s.reg r) m) ∧
      (s.cfg.regMemLeft = .memory → Compared s t 4 m (s.reg r))) ∧
    (∃ t, exec (.cmpMemReg a r) s = .next t ∧
      (s.cfg.memRegLeft = .memory → Compared s t 4 m (s.reg r)) ∧
      (s.cfg.memRegLeft = .register → Compared s t 4 (s.reg r) m))

/-! ### Control -/

/-- R141, R142, R144, R145: JUMP, JUMP_EQ, JUMP_GT and JUMP_LT go to their address exactly when their flag says so, else past
their 3 bytes. -/
def Obligations.JumpResults : Prop :=
  ∀ (s : State) (a : Word),
    (encode (.jump a)).head? = some 0x21 ∧ (encode (.jumpEq a)).head? = some 0x22 ∧
    (encode (.jumpGt a)).head? = some 0x24 ∧ (encode (.jumpLt a)).head? = some 0x25 ∧
    (∃ t, exec (.jump a) s = .next t ∧ Jumped s t a) ∧
    (∃ t, exec (.jumpEq a) s = .next t ∧
      Jumped s t (if (s.reg .flags).getLsbD 0 = true then a else s.reg .pc + 3)) ∧
    (∃ t, exec (.jumpGt a) s = .next t ∧
      Jumped s t (if (s.reg .flags).getLsbD 2 = true then a else s.reg .pc + 3)) ∧
    (∃ t, exec (.jumpLt a) s = .next t ∧
      Jumped s t (if (s.reg .flags).getLsbD 1 = true then a else s.reg .pc + 3))

/-- R143, R146, R147: JUMP_NEQ, JUMP_GEQ and JUMP_LEQ on all eight flag combinations (decision D20). -/
def Obligations.DerivedJumpResults : Prop :=
  ∀ (s : State) (a : Word),
    (∃ t, exec (.jumpNeq a) s = .next t ∧
      Jumped s t (if (s.reg .flags).getLsbD 0 = true then s.reg .pc + 3 else a)) ∧
    (∃ t, exec (.jumpGeq a) s = .next t ∧
      Jumped s t
        (if (s.reg .flags).getLsbD 2 = true ∨ (s.reg .flags).getLsbD 0 = true then a else s.reg .pc + 3)) ∧
    (∃ t, exec (.jumpLeq a) s = .next t ∧
      Jumped s t
        (if (s.reg .flags).getLsbD 1 = true ∨ (s.reg .flags).getLsbD 0 = true then a else s.reg .pc + 3))

/-- R148: CALL saves BP, SP and the return address in the three link registers, sets BP to SP and jumps; nothing is pushed
(which registers: decision D21, any three different general registers here). -/
def Obligations.CallSavesLinks : Prop :=
  ∀ (s : State) (a : Word), s.cfg.linksOk = true →
    ∃ t, exec (.call a) s = .next t ∧ t.reg s.cfg.linkBp = s.reg .bp ∧ t.reg s.cfg.linkSp = s.reg .sp ∧
      t.reg s.cfg.linkRa = s.reg .pc + 3 ∧ t.reg .bp = s.reg .sp ∧ t.reg .pc = a ∧
      SameRegsBut s t [s.cfg.linkSp, s.cfg.linkBp, s.cfg.linkRa, .bp, .pc] ∧ SameBytes s t ∧ t.engine = s.engine ∧
      t.icount = s.icount + 1

/-- R149: RET restores BP, SP and PC from the three link registers, whatever they hold; nothing is popped and the link
registers keep their values. -/
def Obligations.RetRestores : Prop :=
  encode .ret = [0x02] ∧
  ∀ s : State, s.cfg.linksOk = true →
    ∃ t, exec .ret s = .next t ∧ t.reg .bp = s.reg s.cfg.linkBp ∧ t.reg .sp = s.reg s.cfg.linkSp ∧
      t.reg .pc = s.reg s.cfg.linkRa ∧ SameRegsBut s t [.bp, .sp, .pc] ∧
      t.reg s.cfg.linkBp = s.reg s.cfg.linkBp ∧ t.reg s.cfg.linkSp = s.reg s.cfg.linkSp ∧
      t.reg s.cfg.linkRa = s.reg s.cfg.linkRa ∧ SameBytes s t ∧ t.engine = s.engine ∧ t.icount = s.icount + 1

/-- R148, R149, the source's property: after a CALL, a RET that finds the link registers as the CALL left them restores BP
and SP and goes to the address after the CALL. -/
def Obligations.CallThenRetReturns : Prop :=
  ∀ (s : State) (a : Word), s.cfg.linksOk = true →
    ∃ t, exec (.call a) s = .next t ∧
      ∀ u : State, u.cfg = t.cfg → u.reg s.cfg.linkSp = t.reg s.cfg.linkSp → u.reg s.cfg.linkBp = t.reg s.cfg.linkBp →
        u.reg s.cfg.linkRa = t.reg s.cfg.linkRa →
        ∃ w, exec .ret u = .next w ∧ w.reg .sp = s.reg .sp ∧ w.reg .bp = s.reg .bp ∧ w.reg .pc = s.reg .pc + 3

/-- R151: HALT halts the engine and advances PC by 1; nothing else changes but the count (decision D26). -/
def Obligations.HaltResult : Prop :=
  ∀ s : State, ∃ t, exec .halt s = .next t ∧ t.engine = .halted ∧ t.reg .pc = s.reg .pc + 1 ∧ SameRegsBut s t [.pc] ∧
    SameBytes s t ∧ t.icount = s.icount + 1

/-- R152: NOOP advances PC by 1; nothing else changes, and it is counted. -/
def Obligations.NoopResult : Prop :=
  encode .noop = [0x04] ∧ ∀ s : State, ∃ t, exec .noop s = .next t ∧ Jumped s t (s.reg .pc + 1)
end

