-- ==== Sys2Proof/Laws/Decode.lean ====
section
/-! SUPPORT. The byte order, the register ids and the opcode map. -/

namespace Sys2Proof

@[simp] theorem leWord_lo_hi (w : Word) : leWord (loByte w) (hiByte w) = w := by
  apply BitVec.eq_of_toNat_eq
  simp only [leWord, loByte, hiByte, BitVec.toNat_append, BitVec.extractLsb'_toNat,
    Nat.shiftRight_eq_div_pow]
  have h := w.isLt
  rw [← Nat.shiftLeft_add_eq_or_of_lt (Nat.mod_lt _ (by decide)), Nat.shiftLeft_eq]
  omega

theorem leWord_toNat (lo hi : Byte) : (leWord lo hi).toNat = lo.toNat + 256 * hi.toNat := by
  rw [leWord, BitVec.toNat_append, ← Nat.shiftLeft_add_eq_or_of_lt lo.isLt, Nat.shiftLeft_eq]
  omega

theorem loByte_toNat (w : Word) : (loByte w).toNat = w.toNat % 256 := by
  simp [loByte, BitVec.extractLsb'_toNat]

theorem hiByte_toNat (w : Word) : (hiByte w).toNat = w.toNat / 256 := by
  have h := w.isLt
  simp only [hiByte, BitVec.extractLsb'_toNat, Nat.shiftRight_eq_div_pow]
  omega

@[simp] theorem loByte_leWord (lo hi : Byte) : loByte (leWord lo hi) = lo := by
  apply BitVec.eq_of_toNat_eq
  have h := lo.isLt
  rw [loByte_toNat, leWord_toNat]
  omega

@[simp] theorem hiByte_leWord (lo hi : Byte) : hiByte (leWord lo hi) = hi := by
  apply BitVec.eq_of_toNat_eq
  have h := lo.isLt
  rw [hiByte_toNat, leWord_toNat]
  omega

@[simp] theorem Reg.ofId_id (r : Reg) : Reg.ofId r.id = some r := by cases r <;> rfl

theorem Reg.id_of_ofId (b : Byte) (r : Reg) (h : Reg.ofId b = some r) : r.id = b := by
  have hb : b.toNat < 12 := by
    rcases Nat.lt_or_ge b.toNat 12 with h' | h'
    · exact h'
    · rw [Reg.ofId, List.getElem?_eq_none (by simpa [Reg.all] using h')] at h
      cases h
  apply BitVec.eq_of_toNat_eq
  rw [Reg.ofId] at h
  generalize b.toNat = n at *
  match n, hb with
  | 0, _ => cases h; rfl
  | 1, _ => cases h; rfl
  | 2, _ => cases h; rfl
  | 3, _ => cases h; rfl
  | 4, _ => cases h; rfl
  | 5, _ => cases h; rfl
  | 6, _ => cases h; rfl
  | 7, _ => cases h; rfl
  | 8, _ => cases h; rfl
  | 9, _ => cases h; rfl
  | 10, _ => cases h; rfl
  | 11, _ => cases h; rfl

/-- A register-id byte selects a register exactly when it is at most 11 (R55). -/
theorem Reg.ofId_eq_none (b : Byte) : Reg.ofId b = none ↔ regIdOk b = false := by
  rw [Reg.ofId, List.getElem?_eq_none_iff]
  simp [Reg.all, regIdOk]
  omega

@[simp] theorem decodeReg_id (r : Reg) : decodeReg r.id = .ok r := by simp [decodeReg]

/-- Everything `decodeReg` can answer. -/
theorem decodeReg_ok (b : Byte) (r : Reg) : decodeReg b = .ok r ↔ b = r.id := by
  constructor
  · intro h
    unfold decodeReg at h
    cases hr : Reg.ofId b with
    | none => simp [hr] at h
    | some q => simp only [hr, Except.ok.injEq] at h; rw [← h, Reg.id_of_ofId b q hr]
  · rintro rfl; simp

theorem decodeReg_error (b : Byte) (e : DecodeError) :
    decodeReg b = .error e ↔ regIdOk b = false ∧ e = .illegalRegister b := by
  unfold decodeReg
  rw [← Reg.ofId_eq_none]
  cases Reg.ofId b <;> simp [eq_comm]

/-- The form of an opcode byte has the shape class of the byte's bits 7:5 (R51, R52, R57). -/
theorem opcodeForm_shape : ∀ row ∈ opcodeTable, Shape.ofClass (opcodeClass row.1) = some row.2.shape := by
  intro row h
  simp only [opcodeTable, List.cons_append, List.nil_append, List.mem_cons, List.not_mem_nil, or_false] at h
  rcases h with rfl | rfl | rfl | rfl | rfl | rfl | rfl | rfl | rfl | rfl | rfl | rfl | rfl | rfl | rfl | rfl | rfl |
    rfl | rfl | rfl | rfl | rfl | rfl | rfl | rfl | rfl | rfl | rfl | rfl | rfl | rfl | rfl | rfl | rfl | rfl | rfl |
    rfl | rfl | rfl <;> rfl

/-- No two rows of the opcode map have the same opcode byte (R50, R57). -/
theorem opcodeTable_distinct : (opcodeTable.map Prod.fst).Nodup := by decide

/-- A form found for an opcode byte is that byte's row of the map. -/
theorem opcodeForm_mem (op : Byte) (f : Form) (h : opcodeForm op = some f) : (op, f) ∈ opcodeTable := by
  unfold opcodeForm at h
  rw [List.lookup_eq_some_iff] at h
  obtain ⟨l₁, l₂, h, -⟩ := h
  rw [h]
  simp

end Sys2Proof
end

