-- ==== Sys2Proof/Laws/Float16.lean ====
section
/-! SUPPORT. Half-precision: NaN results are NaN patterns, the range of the view, and rounding to the nearest integer. -/

namespace Sys2Proof.Machine

/-- `FP_NAN` is a NaN pattern, whatever the free value is. -/
theorem isNaN_fpNan (op : FpOp) (a b : Word) : isNaN (fpNan op a b) = true := by
  unfold fpNan
  split
  · assumption
  · decide

/-- A word views as a NaN exactly when it is a NaN pattern. -/
theorem halfView_eq_nan (w : Word) : halfView w = .nan ↔ isNaN w = true := by
  unfold halfView isNaN
  by_cases h : halfExp w = 31
  · by_cases hf : halfFrac w = 0 <;> simp [h, hf]
  · by_cases he : halfExp w = 0 <;> simp [h, he]

/-- Everything `fpResult` can answer. -/
theorem fpResult_cases (op : FpOp) (f : Word → Word → Option Word) (a b : Word) :
    (∃ v, f a b = some v ∧ fpResult op f a b = v) ∨ (f a b = none ∧ isNaN (fpResult op f a b) = true) := by
  unfold fpResult
  cases f a b with
  | none => simp [isNaN_fpNan]
  | some v => simp

/-- `roundHalfEven` is a nearest integer: twice the distance to the exact quotient is at most the divisor. -/
theorem roundHalfEven_near (n d : Nat) (hd : 0 < d) :
    2 * n ≤ (2 * roundHalfEven n d + 1) * d ∧ (2 * roundHalfEven n d) * d ≤ 2 * n + d := by
  have hdm := Nat.div_add_mod n d
  have hlt := Nat.mod_lt n hd
  unfold roundHalfEven
  generalize n / d = q at *
  generalize n % d = r at *
  subst hdm
  have e1 : (2 * q + 1) * d = 2 * (d * q) + d := by ring
  have e2 : 2 * q * d = 2 * (d * q) := by ring
  have e3 : (2 * (q + 1) + 1) * d = 2 * (d * q) + 3 * d := by ring
  have e4 : 2 * (q + 1) * d = 2 * (d * q) + 2 * d := by ring
  split
  · omega
  · split
    · omega
    · rcases Nat.mod_two_eq_zero_or_one q with h | h
      · rw [h]; change 2 * (d * q + r) ≤ (2 * q + 1) * d ∧ 2 * q * d ≤ 2 * (d * q + r) + d; omega
      · rw [h]; omega

end Sys2Proof.Machine
end

