-- ==== Sys2Proof/Laws/Memory.lean ====
section
/-! SUPPORT. The memory buffer: read after write, and every operation keeps the canonical form and the bound. -/

namespace Sys2Proof.Machine

theorem Memory.read_write_other (m : Memory) (a x : Nat) (v : Byte) (h : x ≠ a) :
    (m.write a v).read x = m.read x := by
  induction m with
  | nil => unfold Memory.write; split <;> simp [Memory.read, h.symm]
  | cons c rest ih =>
    obtain ⟨k, b⟩ := c
    unfold Memory.write
    split
    · split <;> simp [Memory.read, h.symm]
    · split
      · next hk => subst hk; split <;> simp [Memory.read, h.symm]
      · simp [Memory.read, ih]

/-- Below its first address a canonical memory reads as unlisted. -/
theorem Memory.read_of_wfFrom_lt (m : Memory) (lo a : Nat) (hm : Memory.wfFrom lo m = true) (h : a < lo) :
    m.read a = unlistedByte := by
  induction m generalizing lo with
  | nil => rfl
  | cons c rest ih =>
    obtain ⟨k, b⟩ := c
    simp only [Memory.wfFrom, Bool.and_eq_true, decide_eq_true_eq] at hm
    have hk : k ≠ a := by omega
    simp only [Memory.read, hk, if_false]
    exact ih (k + 1) hm.2 (by omega)

theorem Memory.read_write_same (m : Memory) (lo a : Nat) (v : Byte) (hm : Memory.wfFrom lo m = true) :
    (m.write a v).read a = v := by
  induction m generalizing lo with
  | nil => unfold Memory.write; split <;> simp_all [Memory.read]
  | cons c rest ih =>
    obtain ⟨k, b⟩ := c
    have hm' := hm
    simp only [Memory.wfFrom, Bool.and_eq_true, decide_eq_true_eq] at hm
    unfold Memory.write
    split
    · split
      · next hlt hv =>
        rw [hv]
        have hk : Memory.wfFrom k ((k, b) :: rest) = true := by
          simp only [Memory.wfFrom, Bool.and_eq_true, decide_eq_true_eq]
          exact ⟨⟨Nat.le_refl k, hm.1.2⟩, hm.2⟩
        exact Memory.read_of_wfFrom_lt _ k a hk hlt
      · simp [Memory.read]
    · split
      · next hk =>
        split
        · next hv => rw [hv]; exact Memory.read_of_wfFrom_lt rest (k + 1) a hm.2 (by omega)
        · simp [Memory.read]
      · next hk =>
        have : k ≠ a := fun h => hk h.symm
        simp only [Memory.read, this, if_false]
        exact ih (k + 1) hm.2

theorem Memory.wfFrom_mono (m : Memory) (lo lo' : Nat) (h : lo' ≤ lo) (hm : Memory.wfFrom lo m = true) :
    Memory.wfFrom lo' m = true := by
  cases m with
  | nil => rfl
  | cons c rest =>
    simp only [Memory.wfFrom, Bool.and_eq_true, decide_eq_true_eq] at hm ⊢
    exact ⟨⟨by omega, hm.1.2⟩, hm.2⟩

theorem Memory.write_wfFrom (m : Memory) (lo a : Nat) (v : Byte) (ha : lo ≤ a) (hm : Memory.wfFrom lo m = true) :
    Memory.wfFrom lo (m.write a v) = true := by
  induction m generalizing lo with
  | nil => unfold Memory.write; split <;> simp_all [Memory.wfFrom]
  | cons c rest ih =>
    obtain ⟨k, b⟩ := c
    have hm' := hm
    simp only [Memory.wfFrom, Bool.and_eq_true, decide_eq_true_eq] at hm
    unfold Memory.write
    split
    · split
      · exact hm'
      · next hv =>
        simp only [Memory.wfFrom, Bool.and_eq_true, decide_eq_true_eq]
        exact ⟨⟨ha, by simpa using hv⟩, ⟨by omega, hm.1.2⟩, hm.2⟩
    · split
      · next hk =>
        split
        · exact Memory.wfFrom_mono rest (k + 1) lo (by omega) hm.2
        · next hv =>
          simp only [Memory.wfFrom, Bool.and_eq_true, decide_eq_true_eq]
          exact ⟨⟨ha, by simpa using hv⟩, by rw [hk]; exact hm.2⟩
      · simp only [Memory.wfFrom, Bool.and_eq_true, decide_eq_true_eq]
        exact ⟨hm.1, ih (k + 1) (by omega) hm.2⟩

/-- A byte write keeps the canonical form. -/
theorem Memory.write_wf (m : Memory) (a : Nat) (v : Byte) (hm : m.wf = true) : (m.write a v).wf = true :=
  Memory.write_wfFrom m 0 a v (Nat.zero_le a) hm

/-- A byte write inside a bound keeps the memory inside it. -/
theorem Memory.write_below (m : Memory) (a hi : Nat) (v : Byte) (ha : a < hi) (hm : m.below hi = true) :
    (m.write a v).below hi = true := by
  unfold Memory.below at *
  induction m with
  | nil => unfold Memory.write; split <;> simp_all
  | cons c rest ih =>
    obtain ⟨k, b⟩ := c
    simp only [List.all_cons, Bool.and_eq_true, decide_eq_true_eq] at hm
    unfold Memory.write
    split
    · split
      · simp only [List.all_cons, Bool.and_eq_true, decide_eq_true_eq]; exact hm
      · simp only [List.all_cons, Bool.and_eq_true, decide_eq_true_eq]; exact ⟨ha, hm⟩
    · split
      · split
        · exact hm.2
        · simp only [List.all_cons, Bool.and_eq_true, decide_eq_true_eq]; exact ⟨ha, hm.2⟩
      · simp only [List.all_cons, Bool.and_eq_true, decide_eq_true_eq]
        exact ⟨hm.1, ih hm.2⟩

/-- A word write keeps the canonical form. -/
theorem Memory.writeWord_wf (m : Memory) (a : Nat) (v : Word) (hm : m.wf = true) : (m.writeWord a v).wf = true :=
  Memory.write_wf _ _ _ (Memory.write_wf m a _ hm)

/-- A word write inside a bound keeps the memory inside it. -/
theorem Memory.writeWord_below (m : Memory) (a hi : Nat) (v : Word) (ha : a + 2 ≤ hi) (hm : m.below hi = true) :
    (m.writeWord a v).below hi = true :=
  Memory.write_below _ _ _ _ (by omega) (Memory.write_below m a hi _ (by omega) hm)

/-- A word write leaves every byte but its own two. -/
theorem Memory.read_writeWord_other (m : Memory) (a x : Nat) (v : Word) (h0 : x ≠ a) (h1 : x ≠ a + 1) :
    (m.writeWord a v).read x = m.read x := by
  rw [Memory.writeWord, Memory.read_write_other _ _ _ _ h1, Memory.read_write_other _ _ _ _ h0]

/-- After a word write its first byte reads as the low byte. -/
theorem Memory.read_writeWord_low (m : Memory) (a : Nat) (v : Word) (hm : m.wf = true) :
    (m.writeWord a v).read a = loByte v := by
  rw [Memory.writeWord, Memory.read_write_other _ _ _ _ (by omega), Memory.read_write_same m 0 a _ hm]

/-- After a word write its second byte reads as the high byte. -/
theorem Memory.read_writeWord_high (m : Memory) (a : Nat) (v : Word) (hm : m.wf = true) :
    (m.writeWord a v).read (a + 1) = hiByte v := by
  rw [Memory.writeWord, Memory.read_write_same _ 0 _ _ (Memory.write_wf m a _ hm)]

theorem Memory.ofBytes_wfFrom (bs : List Byte) (a lo : Nat) (h : lo ≤ a) :
    Memory.wfFrom lo (Memory.ofBytes a bs) = true := by
  induction bs generalizing a lo with
  | nil => rfl
  | cons b rest ih =>
    unfold Memory.ofBytes
    split
    · exact ih (a + 1) lo (by omega)
    · next hb =>
      simp only [Memory.wfFrom, Bool.and_eq_true, decide_eq_true_eq]
      exact ⟨⟨h, by simpa using hb⟩, ih (a + 1) (a + 1) (Nat.le_refl _)⟩

/-- The memory of a byte string is in canonical form. -/
theorem Memory.ofBytes_wf (bs : List Byte) : (Memory.ofBytes 0 bs).wf = true :=
  Memory.ofBytes_wfFrom bs 0 0 (Nat.le_refl 0)

/-- The memory of a byte string reads as the string inside it and as unlisted elsewhere. -/
theorem Memory.read_ofBytes (bs : List Byte) (a x : Nat) :
    (Memory.ofBytes a bs).read x =
      if a ≤ x then (bs[x - a]?).getD unlistedByte else unlistedByte := by
  induction bs generalizing a with
  | nil => simp [Memory.ofBytes, Memory.read]
  | cons b rest ih =>
    have step : (Memory.ofBytes a (b :: rest)).read x = if a = x then b else (Memory.ofBytes (a + 1) rest).read x := by
      rw [Memory.ofBytes]
      split
      · next hb =>
        split
        · next hx => subst hx; rw [ih, if_neg (by omega), hb]
        · rfl
      · rfl
    rw [step, ih]
    rcases Nat.lt_trichotomy a x with h | h | h
    · rw [if_neg (by omega), if_pos (by omega), if_pos (by omega)]
      obtain ⟨d, rfl⟩ : ∃ d, x = a + 1 + d := ⟨x - (a + 1), by omega⟩
      have e1 : a + 1 + d - (a + 1) = d := by omega
      have e2 : a + 1 + d - a = d + 1 := by omega
      rw [e1, e2, List.getElem?_cons_succ]
    · subst h; simp
    · rw [if_neg (by omega), if_neg (by omega), if_neg (by omega)]

/-- Writing a byte string keeps the canonical form. -/
theorem Memory.writeBytes_wf (m : Memory) (a : Nat) (bs : List Byte) (hm : m.wf = true) :
    (m.writeBytes a bs).wf = true := by
  induction bs generalizing m a with
  | nil => exact hm
  | cons b rest ih => exact ih _ _ (Memory.write_wf m a b hm)

/-- Byte `k` of the `n` bytes from an address is the byte `k` further on. -/
theorem Memory.bytes_getElem? (m : Memory) (a n k : Nat) :
    (m.bytes a n)[k]? = if k < n then some (m.read (a + k)) else none := by
  induction n generalizing a k with
  | zero => simp [Memory.bytes]
  | succ n ih =>
    cases k with
    | zero => simp [Memory.bytes]
    | succ k =>
      rw [Memory.bytes, List.getElem?_cons_succ, ih]
      have : a + 1 + k = a + (k + 1) := by omega
      simp [this]

@[simp] theorem Memory.bytes_length (m : Memory) (a n : Nat) : (m.bytes a n).length = n := by
  induction n generalizing a with
  | zero => rfl
  | succ n ih => simp [Memory.bytes, ih]

end Sys2Proof.Machine
end

