-- ==== Sys2Proof/Laws/State.lean ====
section
/-! SUPPORT. One lemma per field of the state and update, and the read of a register after a write. -/

namespace Sys2Proof.Machine

theorem RegFile.get_set (f : RegFile) (r q : Reg) (v : Word) :
    (f.set r v).get q = if q = r then v else f.get q := by
  cases r <;> cases q <;> rfl

theorem RegFile.get_set_same (f : RegFile) (r : Reg) (v : Word) : (f.set r v).get r = v := by
  cases r <;> rfl

/-- Two register files that read alike at every index are equal. -/
theorem RegFile.ext_get (f g : RegFile) (h : ∀ r, f.get r = g.get r) : f = g := by
  cases f; cases g
  have h0 := h .x0; have h1 := h .x1; have h2 := h .x2; have h3 := h .x3; have h4 := h .x4; have h5 := h .x5
  have h6 := h .x6; have h7 := h .x7; have h8 := h .pc; have h9 := h .sp; have h10 := h .bp; have h11 := h .flags
  simp only [RegFile.get] at h0 h1 h2 h3 h4 h5 h6 h7 h8 h9 h10 h11
  simp only [h0, h1, h2, h3, h4, h5, h6, h7, h8, h9, h10, h11]

@[simp] theorem State.setReg_reg (s : State) (r q : Reg) (v : Word) :
    (s.setReg r v).reg q = if q = r then v else s.reg q :=
  RegFile.get_set s.regs r q v

@[simp] theorem State.setReg_regs (s : State) (r : Reg) (v : Word) : (s.setReg r v).regs = s.regs.set r v := rfl

@[simp] theorem State.setReg_engine (s : State) (r : Reg) (v : Word) : (s.setReg r v).engine = s.engine := rfl

@[simp] theorem State.setReg_icount (s : State) (r : Reg) (v : Word) : (s.setReg r v).icount = s.icount := rfl

@[simp] theorem State.setReg_mem (s : State) (r : Reg) (v : Word) : (s.setReg r v).mem = s.mem := rfl

@[simp] theorem State.setReg_cfg (s : State) (r : Reg) (v : Word) : (s.setReg r v).cfg = s.cfg := rfl

@[simp] theorem State.setReg_byteAt (s : State) (r : Reg) (v : Word) (x : Nat) : (s.setReg r v).byteAt x = s.byteAt x := rfl

@[simp] theorem State.setEngine_reg (s : State) (e : Engine) (q : Reg) : (s.setEngine e).reg q = s.reg q := rfl

@[simp] theorem State.setEngine_regs (s : State) (e : Engine) : (s.setEngine e).regs = s.regs := rfl

@[simp] theorem State.setEngine_engine (s : State) (e : Engine) : (s.setEngine e).engine = e := rfl

@[simp] theorem State.setEngine_icount (s : State) (e : Engine) : (s.setEngine e).icount = s.icount := rfl

@[simp] theorem State.setEngine_mem (s : State) (e : Engine) : (s.setEngine e).mem = s.mem := rfl

@[simp] theorem State.setEngine_cfg (s : State) (e : Engine) : (s.setEngine e).cfg = s.cfg := rfl

@[simp] theorem State.setEngine_byteAt (s : State) (e : Engine) (x : Nat) : (s.setEngine e).byteAt x = s.byteAt x := rfl

@[simp] theorem State.setMem_reg (s : State) (m : Memory) (q : Reg) : (s.setMem m).reg q = s.reg q := rfl

@[simp] theorem State.setMem_regs (s : State) (m : Memory) : (s.setMem m).regs = s.regs := rfl

@[simp] theorem State.setMem_engine (s : State) (m : Memory) : (s.setMem m).engine = s.engine := rfl

@[simp] theorem State.setMem_icount (s : State) (m : Memory) : (s.setMem m).icount = s.icount := rfl

@[simp] theorem State.setMem_mem (s : State) (m : Memory) : (s.setMem m).mem = m := rfl

@[simp] theorem State.setMem_cfg (s : State) (m : Memory) : (s.setMem m).cfg = s.cfg := rfl

@[simp] theorem State.setMem_byteAt (s : State) (m : Memory) (x : Nat) : (s.setMem m).byteAt x = m.read x := rfl

@[simp] theorem State.count_reg (s : State) (q : Reg) : s.count.reg q = s.reg q := rfl

@[simp] theorem State.count_regs (s : State) : s.count.regs = s.regs := rfl

@[simp] theorem State.count_engine (s : State) : s.count.engine = s.engine := rfl

@[simp] theorem State.count_icount (s : State) : s.count.icount = s.icount + 1 := rfl

@[simp] theorem State.count_mem (s : State) : s.count.mem = s.mem := rfl

@[simp] theorem State.count_cfg (s : State) : s.count.cfg = s.cfg := rfl

@[simp] theorem State.count_byteAt (s : State) (x : Nat) : s.count.byteAt x = s.byteAt x := rfl

end Sys2Proof.Machine
end

