-- ==== Sys2Proof/Laws/Ops.lean ====
section
/-! SUPPORT. For each shared operation, everything it can answer. -/

namespace Sys2Proof.Machine

/-! ### Checks -/

theorem accessFits_iff (c : Config) (a : Word) (n : Nat) : accessFits c a n = true ↔ a.toNat + n ≤ c.memSize := by
  simp [accessFits]

theorem executable_iff (c : Config) (a : Word) :
    executable c a = true ↔ c.staticSize ≤ a.toNat ∧ a.toNat < c.programSize := by
  simp [executable]

/-- Where a whole word fits, `writable` is the negation of R43's read-only test. -/
theorem writable_of_fits (c : Config) (a : Word) (h : a.toNat + 2 ≤ c.memSize) :
    writable c a = true ↔ ¬(c.programReadonly = true ∧ a.toNat < c.programSize) := by
  have : a.toNat < c.memSize := by omega
  cases hr : c.programReadonly <;> simp [writable, inRange, this, hr]

/-! ### Memory accesses -/

/-- Everything `memRead` can answer. -/
theorem memRead_ok (s : State) (a v : Word) :
    memRead s a = .ok v ↔ a.toNat + 2 ≤ s.cfg.memSize ∧ v = s.mem.readWord a.toNat := by
  unfold memRead
  by_cases h : accessFits s.cfg a 2 = true
  · simp only [h, if_true, Except.ok.injEq]
    exact ⟨fun e => ⟨(accessFits_iff _ _ _).1 h, e.symm⟩, fun e => e.2.symm⟩
  · simp only [h]
    simp only [accessFits_iff] at h
    simp [h]

theorem memRead_error (s : State) (a : Word) (c : Cause) :
    memRead s a = .error c ↔ s.cfg.memSize < a.toNat + 2 ∧ c = .outOfBoundsAccess a := by
  unfold memRead
  by_cases h : accessFits s.cfg a 2 = true
  · simp only [h, if_true]
    rw [accessFits_iff] at h
    simp [Nat.not_lt.2 h]
  · simp only [h]
    rw [accessFits_iff] at h
    simp only [Bool.false_eq_true, if_false, Except.error.injEq]
    exact ⟨fun e => ⟨by omega, e.symm⟩, fun e => e.2.symm⟩

/-- Everything `memWrite` can answer: the soft halt with nothing written, or the write. -/
theorem memWrite_ok (s t : State) (a v : Word) :
    memWrite s a v = .ok t ↔
      a.toNat + 2 ≤ s.cfg.memSize ∧
        ((s.cfg.programReadonly = true ∧ a.toNat < s.cfg.programSize) ∧ t = s.setEngine .halted ∨
          ¬(s.cfg.programReadonly = true ∧ a.toNat < s.cfg.programSize) ∧
            t = s.setMem (s.mem.writeWord a.toNat v)) := by
  unfold memWrite
  by_cases h : accessFits s.cfg a 2 = true
  · simp only [h, if_true]
    rw [accessFits_iff] at h
    by_cases hw : writable s.cfg a = true
    · simp only [hw, if_true, Except.ok.injEq]
      rw [writable_of_fits _ _ h] at hw
      exact ⟨fun e => ⟨h, .inr ⟨hw, e.symm⟩⟩, fun e => (e.2.resolve_left (fun x => hw x.1)).2.symm⟩
    · simp only [hw]
      rw [writable_of_fits _ _ h, not_not] at hw
      exact ⟨fun e => ⟨h, .inl ⟨hw, by simpa using e.symm⟩⟩,
        fun e => by simpa using (e.2.resolve_right (fun x => x.1 hw)).2.symm⟩
  · simp only [h]
    rw [accessFits_iff] at h
    simp [h]

theorem memWrite_error (s : State) (a v : Word) (c : Cause) :
    memWrite s a v = .error c ↔ s.cfg.memSize < a.toNat + 2 ∧ c = .outOfBoundsAccess a := by
  unfold memWrite
  by_cases h : accessFits s.cfg a 2 = true
  · simp only [h, if_true]
    rw [accessFits_iff] at h
    split <;> simp [Nat.not_lt.2 h]
  · simp only [h]
    rw [accessFits_iff] at h
    simp only [Bool.false_eq_true, if_false, Except.error.injEq]
    exact ⟨fun e => ⟨by omega, e.symm⟩, fun e => e.2.symm⟩

/-! ### The stack -/

/-- Everything `push` can answer: the memory write's state with SP two further on. -/
theorem push_ok (s t : State) (v : Word) :
    push s v = .ok t ↔ ∃ u, memWrite s (s.reg .sp) v = .ok u ∧ t = u.setReg .sp (s.reg .sp + 2) := by
  unfold push
  cases memWrite s (s.reg .sp) v with
  | error c => simp
  | ok u => simp [eq_comm]

theorem push_error (s : State) (v : Word) (c : Cause) :
    push s v = .error c ↔ s.cfg.memSize < (s.reg .sp).toNat + 2 ∧ c = .outOfBoundsAccess (s.reg .sp) := by
  rw [← memWrite_error s (s.reg .sp) v c]
  unfold push
  cases memWrite s (s.reg .sp) v <;> simp

/-- Everything `pop` can answer: the word two below SP, and SP moved down to it. -/
theorem pop_ok (s t : State) (v : Word) :
    pop s = .ok (v, t) ↔
      (belowSp s 2).toNat + 2 ≤ s.cfg.memSize ∧ v = s.mem.readWord (belowSp s 2).toNat ∧
        t = s.setReg .sp (belowSp s 2) := by
  unfold pop
  cases h : memRead s (belowSp s 2) with
  | error c =>
    obtain ⟨h1, -⟩ := (memRead_error _ _ _).1 h
    simp only [reduceCtorEq, false_iff, not_and]
    intro h2
    omega
  | ok w =>
    obtain ⟨h1, h2⟩ := (memRead_ok _ _ _).1 h
    simp [h1, h2, eq_comm]

theorem pop_error (s : State) (c : Cause) :
    pop s = .error c ↔ s.cfg.memSize < (belowSp s 2).toNat + 2 ∧ c = .outOfBoundsAccess (belowSp s 2) := by
  rw [← memRead_error]
  unfold pop
  cases memRead s (belowSp s 2) <;> simp

/-! ### Operand forms -/

/-- Everything `copyWord` can answer. -/
theorem copyWord_ok (d : Dest) (src : Source) (s t : State) :
    copyWord d src s = .ok t ↔ ∃ v, readSource s src = .ok v ∧ writeDest s v d = .ok t := by
  unfold copyWord
  cases readSource s src <;> simp

theorem copyWord_error (d : Dest) (src : Source) (s : State) (c : Cause) :
    copyWord d src s = .error c ↔
      readSource s src = .error c ∨ ∃ v, readSource s src = .ok v ∧ writeDest s v d = .error c := by
  unfold copyWord
  cases readSource s src <;> simp

/-- Everything `aluDivide` can answer. -/
theorem aluDivide_ok (f : Word → Word → Option Word) (rd rs : Reg) (s t : State) :
    aluDivide f rd rs s = .ok t ↔ ∃ v, f (s.reg rd) (s.reg rs) = some v ∧ t = s.setReg rd v := by
  unfold aluDivide
  cases f (s.reg rd) (s.reg rs) <;> simp [eq_comm]

theorem aluDivide_error (f : Word → Word → Option Word) (rd rs : Reg) (s : State) (c : Cause) :
    aluDivide f rd rs s = .error c ↔ f (s.reg rd) (s.reg rs) = none ∧ c = .divideByZero (s.reg .pc) := by
  unfold aluDivide
  cases f (s.reg rd) (s.reg rs) <;> simp [eq_comm]

/-! ### The end of an instruction -/

@[simp] theorem retire_reg (sh : Shape) (s : State) (q : Reg) :
    (retire sh s).reg q = if q = .pc then s.reg .pc + BitVec.ofNat 16 sh.size else s.reg q := by
  simp [retire]

@[simp] theorem retire_engine (sh : Shape) (s : State) : (retire sh s).engine = s.engine := rfl

@[simp] theorem retire_icount (sh : Shape) (s : State) : (retire sh s).icount = s.icount + 1 := rfl

@[simp] theorem retire_mem (sh : Shape) (s : State) : (retire sh s).mem = s.mem := rfl

@[simp] theorem retire_cfg (sh : Shape) (s : State) : (retire sh s).cfg = s.cfg := rfl

@[simp] theorem retire_byteAt (sh : Shape) (s : State) (a : Nat) : (retire sh s).byteAt a = s.byteAt a := rfl

/-- Everything `finish` can answer: it is always a next state. -/
theorem finish_next (sh : Shape) (s t : State) (x : Except Cause State) :
    finish sh s x = .next t ↔
      (∃ c, x = .error c ∧ t = s.setEngine (.faulted c)) ∨ (∃ u, x = .ok u ∧ t = retire sh u) := by
  cases x <;> simp [finish, raise, eq_comm]

theorem finish_ok (sh : Shape) (s u : State) : finish sh s (.ok u) = .next (retire sh u) := rfl

theorem finish_error (sh : Shape) (s : State) (c : Cause) :
    finish sh s (.error c) = .next (s.setEngine (.faulted c)) := rfl

end Sys2Proof.Machine
end

