-- ==== Sys2Proof/Laws/PerInstr.lean ====
section
/-! SUPPORT. One lemma per instruction: the bytes the encoder writes have the shape class and the size of the instruction,
and their opcode byte is legal (30_encoding.md R53, R54, R57). -/

namespace Sys2Proof.Laws

/-- The encoder writes a legal opcode byte whose class bits give the instruction's shape, and as many bytes as the shape
has. -/
def EncodeShape.Statement (i : Instr) : Prop :=
  (encode i).length = i.size ∧
    ∃ op rest, encode i = op :: rest ∧ legalOpcode op = true ∧ Shape.ofClass (opcodeClass op) = some i.shape

theorem EncodeShape.dup : EncodeShape.Statement (.dup) := ⟨rfl, _, _, rfl, rfl, rfl⟩
theorem EncodeShape.cmp : EncodeShape.Statement (.cmp) := ⟨rfl, _, _, rfl, rfl, rfl⟩
theorem EncodeShape.ret : EncodeShape.Statement (.ret) := ⟨rfl, _, _, rfl, rfl, rfl⟩
theorem EncodeShape.halt : EncodeShape.Statement (.halt) := ⟨rfl, _, _, rfl, rfl, rfl⟩
theorem EncodeShape.noop : EncodeShape.Statement (.noop) := ⟨rfl, _, _, rfl, rfl, rfl⟩
theorem EncodeShape.pushImm (imm : Word) : EncodeShape.Statement (.pushImm imm) := ⟨rfl, _, _, rfl, rfl, rfl⟩
theorem EncodeShape.jump (addr : Word) : EncodeShape.Statement (.jump addr) := ⟨rfl, _, _, rfl, rfl, rfl⟩
theorem EncodeShape.jumpEq (addr : Word) : EncodeShape.Statement (.jumpEq addr) := ⟨rfl, _, _, rfl, rfl, rfl⟩
theorem EncodeShape.jumpNeq (addr : Word) : EncodeShape.Statement (.jumpNeq addr) := ⟨rfl, _, _, rfl, rfl, rfl⟩
theorem EncodeShape.jumpGt (addr : Word) : EncodeShape.Statement (.jumpGt addr) := ⟨rfl, _, _, rfl, rfl, rfl⟩
theorem EncodeShape.jumpLt (addr : Word) : EncodeShape.Statement (.jumpLt addr) := ⟨rfl, _, _, rfl, rfl, rfl⟩
theorem EncodeShape.jumpGeq (addr : Word) : EncodeShape.Statement (.jumpGeq addr) := ⟨rfl, _, _, rfl, rfl, rfl⟩
theorem EncodeShape.jumpLeq (addr : Word) : EncodeShape.Statement (.jumpLeq addr) := ⟨rfl, _, _, rfl, rfl, rfl⟩
theorem EncodeShape.call (addr : Word) : EncodeShape.Statement (.call addr) := ⟨rfl, _, _, rfl, rfl, rfl⟩
theorem EncodeShape.not (r : Reg) : EncodeShape.Statement (.not r) := ⟨rfl, _, _, rfl, rfl, rfl⟩
theorem EncodeShape.push (r : Reg) : EncodeShape.Statement (.push r) := ⟨rfl, _, _, rfl, rfl, rfl⟩
theorem EncodeShape.pop (r : Reg) : EncodeShape.Statement (.pop r) := ⟨rfl, _, _, rfl, rfl, rfl⟩
theorem EncodeShape.movRegImm (r : Reg) (imm : Word) : EncodeShape.Statement (.movRegImm r imm) := ⟨rfl, _, _, rfl, rfl, rfl⟩
theorem EncodeShape.add (rd rs : Reg) : EncodeShape.Statement (.add rd rs) := ⟨rfl, _, _, rfl, rfl, rfl⟩
theorem EncodeShape.sub (rd rs : Reg) : EncodeShape.Statement (.sub rd rs) := ⟨rfl, _, _, rfl, rfl, rfl⟩
theorem EncodeShape.mul (rd rs : Reg) : EncodeShape.Statement (.mul rd rs) := ⟨rfl, _, _, rfl, rfl, rfl⟩
theorem EncodeShape.div (rd rs : Reg) : EncodeShape.Statement (.div rd rs) := ⟨rfl, _, _, rfl, rfl, rfl⟩
theorem EncodeShape.adds (rd rs : Reg) : EncodeShape.Statement (.adds rd rs) := ⟨rfl, _, _, rfl, rfl, rfl⟩
theorem EncodeShape.subs (rd rs : Reg) : EncodeShape.Statement (.subs rd rs) := ⟨rfl, _, _, rfl, rfl, rfl⟩
theorem EncodeShape.muls (rd rs : Reg) : EncodeShape.Statement (.muls rd rs) := ⟨rfl, _, _, rfl, rfl, rfl⟩
theorem EncodeShape.divs (rd rs : Reg) : EncodeShape.Statement (.divs rd rs) := ⟨rfl, _, _, rfl, rfl, rfl⟩
theorem EncodeShape.addf (rd rs : Reg) : EncodeShape.Statement (.addf rd rs) := ⟨rfl, _, _, rfl, rfl, rfl⟩
theorem EncodeShape.subf (rd rs : Reg) : EncodeShape.Statement (.subf rd rs) := ⟨rfl, _, _, rfl, rfl, rfl⟩
theorem EncodeShape.mulf (rd rs : Reg) : EncodeShape.Statement (.mulf rd rs) := ⟨rfl, _, _, rfl, rfl, rfl⟩
theorem EncodeShape.divf (rd rs : Reg) : EncodeShape.Statement (.divf rd rs) := ⟨rfl, _, _, rfl, rfl, rfl⟩
theorem EncodeShape.or (rd rs : Reg) : EncodeShape.Statement (.or rd rs) := ⟨rfl, _, _, rfl, rfl, rfl⟩
theorem EncodeShape.xor (rd rs : Reg) : EncodeShape.Statement (.xor rd rs) := ⟨rfl, _, _, rfl, rfl, rfl⟩
theorem EncodeShape.and (rd rs : Reg) : EncodeShape.Statement (.and rd rs) := ⟨rfl, _, _, rfl, rfl, rfl⟩
theorem EncodeShape.movRegReg (rd rs : Reg) : EncodeShape.Statement (.movRegReg rd rs) := ⟨rfl, _, _, rfl, rfl, rfl⟩
theorem EncodeShape.cmpRegReg (rd rs : Reg) : EncodeShape.Statement (.cmpRegReg rd rs) := ⟨rfl, _, _, rfl, rfl, rfl⟩
theorem EncodeShape.movRegMem (r : Reg) (addr : Word) : EncodeShape.Statement (.movRegMem r addr) := ⟨rfl, _, _, rfl, rfl, rfl⟩
theorem EncodeShape.cmpRegMem (r : Reg) (addr : Word) : EncodeShape.Statement (.cmpRegMem r addr) := ⟨rfl, _, _, rfl, rfl, rfl⟩
theorem EncodeShape.movMemReg (addr : Word) (r : Reg) : EncodeShape.Statement (.movMemReg addr r) := ⟨rfl, _, _, rfl, rfl, rfl⟩
theorem EncodeShape.cmpMemReg (addr : Word) (r : Reg) : EncodeShape.Statement (.cmpMemReg addr r) := ⟨rfl, _, _, rfl, rfl, rfl⟩

end Sys2Proof.Laws
end

