-- ==== Sys2Proof/Laws/Step.lean ====
section
/-! SUPPORT. What fetching and one step can answer. -/

namespace Sys2Proof.Machine

/-- Everything `fetch` can answer: an instruction, only where PC is executable and the bytes there decode. -/
theorem fetch_ok (s : State) (i : Instr) :
    fetch s = .ok i ↔ executable s.cfg (s.reg .pc) = true ∧ decode (fetchBytes s) = .ok i := by
  unfold fetch
  by_cases h : executable s.cfg (s.reg .pc) = true
  · simp only [h, if_true, true_and]
    cases decode (fetchBytes s) <;> simp
  · simp [h]

theorem fetch_error (s : State) (c : Cause) :
    fetch s = .error c ↔
      (executable s.cfg (s.reg .pc) = false ∧ c = .outOfBoundsExecution (s.reg .pc)) ∨
        (executable s.cfg (s.reg .pc) = true ∧
          ∃ e, decode (fetchBytes s) = .error e ∧ c = DecodeError.cause (s.reg .pc) e) := by
  unfold fetch
  by_cases h : executable s.cfg (s.reg .pc) = true
  · simp only [h, if_true]
    cases decode (fetchBytes s) <;> simp [eq_comm]
  · simp [h, eq_comm]

/-- Everything a step is: nothing when not running, a fatal error of fetch, or the fetched instruction. -/
theorem step_cases (s : State) :
    (s.engine ≠ .running ∧ step s = .next s) ∨
      (s.engine = .running ∧ ∃ c, fetch s = .error c ∧ step s = .next (s.setEngine (.faulted c))) ∨
        (s.engine = .running ∧ ∃ i, fetch s = .ok i ∧ step s = exec i s) := by
  unfold step
  cases he : s.engine with
  | halted => simp
  | faulted c => simp
  | running =>
    cases hf : fetch s with
    | error c => simp [raise]
    | ok i => simp

end Sys2Proof.Machine
end

