-- ==== Sys2Proof/Tests/Slice0.lean ====
section
/-! SUPPORT. Tests: the decoding of every instruction from bytes written out from spec/30_encoding.md R54 and R57, the
refusals of the decoder and of the well-formedness checks, single steps from spec/95_test_vectors.md section 2, reset and
loading, and for each obligation with hypotheses a state and operands that meet them. -/

namespace Sys2Proof.Tests

open Sys2Proof.Machine

/-! ### Decoding, from R54 and R57 -/

theorem test_decode_dup : decode [0x00] = .ok (.dup) := by rfl
theorem test_decode_cmp : decode [0x01] = .ok (.cmp) := by rfl
theorem test_decode_ret : decode [0x02] = .ok (.ret) := by rfl
theorem test_decode_halt : decode [0x03] = .ok (.halt) := by rfl
theorem test_decode_noop : decode [0x04] = .ok (.noop) := by rfl
theorem test_decode_push_imm : decode [0x20, 0xAD, 0xDE] = .ok (.pushImm 0xDEAD) := by rfl
theorem test_decode_jump : decode [0x21, 0x34, 0x12] = .ok (.jump 0x1234) := by rfl
theorem test_decode_jump_eq : decode [0x22, 0x34, 0x12] = .ok (.jumpEq 0x1234) := by rfl
theorem test_decode_jump_neq : decode [0x23, 0x34, 0x12] = .ok (.jumpNeq 0x1234) := by rfl
theorem test_decode_jump_gt : decode [0x24, 0x34, 0x12] = .ok (.jumpGt 0x1234) := by rfl
theorem test_decode_jump_lt : decode [0x25, 0x34, 0x12] = .ok (.jumpLt 0x1234) := by rfl
theorem test_decode_jump_geq : decode [0x26, 0x34, 0x12] = .ok (.jumpGeq 0x1234) := by rfl
theorem test_decode_jump_leq : decode [0x27, 0x34, 0x12] = .ok (.jumpLeq 0x1234) := by rfl
theorem test_decode_call : decode [0x28, 0x34, 0x12] = .ok (.call 0x1234) := by rfl
theorem test_decode_not : decode [0x40, 0x03] = .ok (.not .x3) := by rfl
theorem test_decode_push : decode [0x41, 0x09] = .ok (.push .sp) := by rfl
theorem test_decode_pop : decode [0x42, 0x08] = .ok (.pop .pc) := by rfl
theorem test_decode_mov_reg_imm : decode [0x60, 0x02, 0xFF, 0xAB] = .ok (.movRegImm .x2 0xABFF) := by rfl
theorem test_decode_add : decode [0x80, 0x00, 0x05] = .ok (.add .x0 .x5) := by rfl
theorem test_decode_sub : decode [0x81, 0x01, 0x06] = .ok (.sub .x1 .x6) := by rfl
theorem test_decode_mul : decode [0x82, 0x02, 0x07] = .ok (.mul .x2 .x7) := by rfl
theorem test_decode_div : decode [0x83, 0x03, 0x08] = .ok (.div .x3 .pc) := by rfl
theorem test_decode_adds : decode [0x84, 0x04, 0x09] = .ok (.adds .x4 .sp) := by rfl
theorem test_decode_subs : decode [0x85, 0x05, 0x0A] = .ok (.subs .x5 .bp) := by rfl
theorem test_decode_muls : decode [0x86, 0x06, 0x0B] = .ok (.muls .x6 .flags) := by rfl
theorem test_decode_divs : decode [0x87, 0x07, 0x00] = .ok (.divs .x7 .x0) := by rfl
theorem test_decode_addf : decode [0x88, 0x08, 0x01] = .ok (.addf .pc .x1) := by rfl
theorem test_decode_subf : decode [0x89, 0x09, 0x02] = .ok (.subf .sp .x2) := by rfl
theorem test_decode_mulf : decode [0x8A, 0x0A, 0x03] = .ok (.mulf .bp .x3) := by rfl
theorem test_decode_divf : decode [0x8B, 0x0B, 0x04] = .ok (.divf .flags .x4) := by rfl
theorem test_decode_or : decode [0x8C, 0x00, 0x05] = .ok (.or .x0 .x5) := by rfl
theorem test_decode_xor : decode [0x8D, 0x01, 0x06] = .ok (.xor .x1 .x6) := by rfl
theorem test_decode_and : decode [0x8E, 0x02, 0x07] = .ok (.and .x2 .x7) := by rfl
theorem test_decode_mov_reg_reg : decode [0x8F, 0x03, 0x08] = .ok (.movRegReg .x3 .pc) := by rfl
theorem test_decode_cmp_reg_reg : decode [0x90, 0x04, 0x09] = .ok (.cmpRegReg .x4 .sp) := by rfl
theorem test_decode_mov_reg_mem : decode [0xA0, 0x0B, 0x00, 0x01] = .ok (.movRegMem .flags 0x0100) := by rfl
theorem test_decode_cmp_reg_mem : decode [0xA1, 0x01, 0xFF, 0x01] = .ok (.cmpRegMem .x1 0x01FF) := by rfl
theorem test_decode_mov_mem_reg : decode [0xC0, 0x01, 0x01, 0x0A] = .ok (.movMemReg 0x0101 .bp) := by rfl
theorem test_decode_cmp_mem_reg : decode [0xC1, 0x00, 0x01, 0x01] = .ok (.cmpMemReg 0x0100 .x1) := by rfl

/-- R57 and spec/opcode_table.json: the second byte counts on from bit 8. -/
theorem test_table_word : decodeTableWord 24 0x010280 = some (.add .x2 .x1) := by rfl

/-! ### Refusals of the decoder and of the checks -/

theorem test_decode_refuses_illegal_opcode : decode [0x05, 0, 0, 0] = .error (.illegalOpcode 0x05) := by rfl

theorem test_decode_refuses_class_seven : decode [0xE0, 0, 0, 0] = .error (.illegalOpcode 0xE0) := by rfl

theorem test_decode_refuses_missing_byte : decode [0x80, 0x0C] = .error .missingBytes := by rfl

theorem test_decode_refuses_rd_before_rs : decode [0x80, 0x0C, 0xFF] = .error (.illegalRegister 0x0C) := by rfl

theorem test_wf_register_id : regIdOk 11 = true ∧ regIdOk 12 = false := by decide

theorem test_wf_default : Config.default.wf = true := by decide

theorem test_wf_refuses_static_too_large :
    ({ Config.default with staticSize := 1 } : Config).staticFits = false ∧
      ({ Config.default with staticSize := 1 } : Config).wf = false := by decide

theorem test_wf_refuses_segments_too_large :
    ({ Config.default with programSize := 64513 } : Config).segmentsFit = false ∧
      ({ Config.default with programSize := 64513 } : Config).wf = false := by decide

theorem test_wf_refuses_memory_too_large :
    ({ Config.default with memSize := 65537 } : Config).memoryAddressable = false ∧
      ({ Config.default with memSize := 65537 } : Config).wf = false := by decide

theorem test_wf_refuses_link_registers :
    ({ Config.default with linkRa := .bp } : Config).linksOk = false ∧
      ({ Config.default with linkSp := .x6 } : Config).linksOk = false ∧
      ({ Config.default with linkRa := .x6 } : Config).wf = false := by decide

/-! ### The set-up of spec/95_test_vectors.md section 2 -/

/-- `STACK_SIZE = 56`, `MEM_SIZE = 512`, 8 bytes of program. -/
def vectorConfig : Config := { Config.default with programSize := 8, stackSize := 56, memSize := 512 }

/-- The reset state with an instruction at address 0 padded by NOOPs, then register overrides and bytes from an address. -/
def vector (code : List Byte) (regs : List (Reg × Word) := []) (addr : Nat := 8) (bytes : List Byte := []) : State :=
  let s := freshState vectorConfig ((code ++ List.replicate 8 0x04).take 8)
  (regs.foldl (fun t p => t.setReg p.1 p.2) s).setMem (s.mem.writeBytes addr bytes)

/-- The same under `PROGRAM_READONLY`. -/
def State.readOnly (s : State) : State := { s with cfg := { s.cfg with programReadonly := true } }

/-- The words some registers hold after one step. -/
def after (s : State) (rs : List Reg) : Option (List Word) :=
  match step s with
  | .next t => some (rs.map t.reg)
  | .fault _ => none
  | .refused _ => none

/-- The bytes from an address on after one step, and the engine state. -/
def memAfter (s : State) (a n : Nat) : Option (List Byte × Engine) :=
  match step s with
  | .next t => some (t.mem.bytes a n, t.engine)
  | .fault _ => none
  | .refused _ => none

/-! ### Single steps, from spec/95_test_vectors.md section 2 -/

theorem test_add :
    after (vector [0x80, 0x02, 0x01] [(.x2, 0x00EF), (.x1, 0xBE00)]) [.x2, .x1, .pc] = some [0xBEEF, 0xBE00, 3] := by decide

theorem test_add_to_pc :
    after (vector [0x80, 0x08, 0x01] [(.x1, 2)]) [.pc, .x1] = some [5, 2] := by decide

theorem test_sub_wraps :
    after (vector [0x81, 0x00, 0x01] [(.x0, 0), (.x1, 1)]) [.x0, .flags] = some [0xFFFF, 0] := by decide

theorem test_mul_wraps :
    after (vector [0x82, 0x00, 0x01] [(.x0, 0xFFFF), (.x1, 0xFFFF)]) [.x0] = some [1] := by decide

theorem test_div :
    after (vector [0x83, 0x02, 0x01] [(.x2, 0x48D0), (.x1, 4)]) [.x2] = some [0x1234] := by decide

theorem test_div_is_unsigned :
    after (vector [0x83, 0x00, 0x01] [(.x0, 0xFFF9), (.x1, 2)]) [.x0] = some [0x7FFC] := by decide

theorem test_adds_wraps :
    after (vector [0x84, 0x00, 0x01] [(.x0, 0x7FFF), (.x1, 1)]) [.x0] = some [0x8000] := by decide

theorem test_subs :
    after (vector [0x85, 0x00, 0x01] [(.x0, 3), (.x1, 5)]) [.x0] = some [0xFFFE] := by decide

theorem test_muls :
    after (vector [0x86, 0x00, 0x01] [(.x0, 0xFFFD), (.x1, 4)]) [.x0] = some [0xFFF4] := by decide

theorem test_divs_toward_zero :
    after (vector [0x87, 0x00, 0x01] [(.x0, 0xFFF9), (.x1, 2)]) [.x0] = some [0xFFFD] := by decide

theorem test_divs_overflow :
    after (vector [0x87, 0x00, 0x01] [(.x0, 0x8000), (.x1, 0xFFFF)]) [.x0] = some [0x8000] := by decide

theorem test_addf_tie_to_even :
    after (vector [0x88, 0x00, 0x01] [(.x0, 0x3C01), (.x1, 0x1000)]) [.x0] = some [0x3C02] := by decide

theorem test_addf_overflow :
    after (vector [0x88, 0x00, 0x01] [(.x0, 0x7BFF), (.x1, 0x4C00)]) [.x0] = some [0x7C00] := by decide

theorem test_subf_negative :
    after (vector [0x89, 0x00, 0x01] [(.x0, 0x3C00), (.x1, 0x4000)]) [.x0] = some [0xBC00] := by decide

theorem test_subf_subnormal :
    after (vector [0x89, 0x00, 0x01] [(.x0, 0x0400), (.x1, 0x0001)]) [.x0] = some [0x03FF] := by decide

theorem test_mulf_rounds :
    after (vector [0x8A, 0x00, 0x01] [(.x0, 0x3555), (.x1, 0x4200)]) [.x0] = some [0x3C00] := by decide

theorem test_mulf_underflow :
    after (vector [0x8A, 0x00, 0x01] [(.x0, 0x0001), (.x1, 0xB800)]) [.x0] = some [0x8000] := by decide

theorem test_divf_rounds :
    after (vector [0x8B, 0x00, 0x01] [(.x0, 0x4000), (.x1, 0x4200)]) [.x0] = some [0x3955] := by decide

theorem test_divf_by_zero :
    after (vector [0x8B, 0x00, 0x01] [(.x0, 0x3C00), (.x1, 0x8000)]) [.x0] = some [0xFC00] := by decide

theorem test_halfAdd_opposite_infinities_is_nan : halfAdd 0x7C00 0xFC00 = none := by decide

theorem test_or :
    after (vector [0x8C, 0x00, 0x01] [(.x0, 0x00F0), (.x1, 0x0F0F)]) [.x0] = some [0x0FFF] := by decide

theorem test_xor :
    after (vector [0x8D, 0x00, 0x01] [(.x0, 0x00FF), (.x1, 0x0F0F)]) [.x0] = some [0x0FF0] := by decide

theorem test_and :
    after (vector [0x8E, 0x00, 0x01] [(.x0, 0x00FF), (.x1, 0x0F0F)]) [.x0] = some [0x000F] := by decide

theorem test_not :
    after (vector [0x40, 0x03] [(.x3, 0x00FF)]) [.x3, .pc] = some [0xFF00, 2] := by decide

theorem test_not_pc :
    after (vector [0x40, 0x08] []) [.pc] = some [1] := by decide

theorem test_push_stores_low_byte_first :
    memAfter (vector [0x41, 0x00] [(.x0, 0x1234), (.sp, 0x0041)]) 0x41 2 = some ([0x34, 0x12], .running) := by decide

theorem test_push_sp_moves :
    after (vector [0x41, 0x09] []) [.sp, .pc] = some [0x000A, 2] := by decide

theorem test_push_imm :
    memAfter (vector [0x20, 0xAD, 0xDE] [(.sp, 0x01FE)]) 0x1FE 2 = some ([0xAD, 0xDE], .running) := by decide

theorem test_push_imm_illegal_write :
    memAfter (State.readOnly (vector [0x20, 0xAD, 0xDE] [(.sp, 0x0007)])) 7 2 = some ([0x04, 0x00], .halted) := by decide

theorem test_pop_to_sp :
    after (vector [0x42, 0x09] [(.sp, 0x000A)] 8 [0x00, 0x01]) [.sp, .pc] = some [0x0100, 2] := by decide

theorem test_pop_to_pc :
    after (vector [0x42, 0x08] [(.sp, 0x000A)] 8 [0x04, 0x00]) [.pc, .sp] = some [6, 8] := by decide

theorem test_dup :
    memAfter (vector [0x00] [(.sp, 0x000A)] 8 [0x34, 0x12]) 0x0A 2 = some ([0x34, 0x12], .running) := by decide

theorem test_dup_out_of_bounds :
    memAfter (vector [0x00] [(.sp, 0x01FF)]) 0x1FD 3 = some ([0x00, 0x00, 0x00], .faulted (.outOfBoundsAccess 0x01FF)) := by decide

theorem test_mov_reg_imm :
    after (vector [0x60, 0x02, 0xFF, 0xAB] []) [.x2, .pc] = some [0xABFF, 4] := by decide

theorem test_mov_reg_imm_to_pc :
    after (vector [0x60, 0x08, 0x10, 0x00] []) [.pc] = some [0x0014] := by decide

theorem test_mov_reg_reg_from_sp :
    after (vector [0x8F, 0x00, 0x09] []) [.x0, .pc] = some [8, 3] := by decide

theorem test_mov_reg_mem_unaligned :
    after (vector [0xA0, 0x00, 0x01, 0x01] [] 0x100 [0xEF, 0xBE, 0x12]) [.x0, .pc] = some [0x12BE, 4] := by decide

theorem test_mov_mem_reg :
    memAfter (vector [0xC0, 0x01, 0x01, 0x00] [(.x0, 0xBEEF)]) 0x100 4 = some ([0x00, 0xEF, 0xBE, 0x00], .running) := by decide

theorem test_mov_mem_reg_illegal_write :
    memAfter (State.readOnly (vector [0xC0, 0x07, 0x00, 0x00] [(.x0, 0x0303)])) 6 3 = some ([0x04, 0x04, 0x00], .halted) := by decide

theorem test_cmp_deeper_is_left :
    after (vector [0x01] [(.sp, 0x000C)] 8 [0x03, 0x00, 0x05, 0x00]) [.flags, .sp, .pc] = some [2, 0x000C, 1] := by decide

theorem test_cmp_reg_reg_keeps_high_bits :
    after (vector [0x90, 0x01, 0x03] [(.x1, 1), (.x3, 2), (.flags, 0xFFFC)]) [.flags, .pc] = some [0xFFFA, 3] := by decide

theorem test_cmp_reg_reg_is_unsigned :
    after (vector [0x90, 0x01, 0x03] [(.x1, 0x8000), (.x3, 0x7FFF)]) [.flags] = some [4] := by decide

theorem test_cmp_reg_mem :
    after (vector [0xA1, 0x01, 0x00, 0x01] [(.x1, 2)] 0x100 [0x05, 0x00]) [.flags, .pc] = some [2, 4] := by decide

theorem test_cmp_mem_reg :
    after (vector [0xC1, 0x00, 0x01, 0x01] [(.x1, 2)] 0x100 [0x05, 0x00]) [.flags, .pc] = some [4, 4] := by decide

theorem test_jump :
    after (vector [0x21, 0xFF, 0xFF] [(.flags, 7)]) [.pc, .flags] = some [0xFFFF, 7] := by decide

theorem test_jump_eq_taken :
    after (vector [0x22, 0x20, 0x00] [(.flags, 1)]) [.pc] = some [0x0020] := by decide

theorem test_jump_eq_falls_through :
    after (vector [0x22, 0x20, 0x00] [(.flags, 6)]) [.pc] = some [3] := by decide

theorem test_jump_neq_taken :
    after (vector [0x23, 0x20, 0x00] [(.flags, 6)]) [.pc] = some [0x0020] := by decide

theorem test_jump_neq_falls_through :
    after (vector [0x23, 0x20, 0x00] [(.flags, 1)]) [.pc] = some [3] := by decide

theorem test_jump_gt_taken :
    after (vector [0x24, 0x20, 0x00] [(.flags, 4)]) [.pc] = some [0x0020] := by decide

theorem test_jump_gt_falls_through :
    after (vector [0x24, 0x20, 0x00] [(.flags, 3)]) [.pc] = some [3] := by decide

theorem test_jump_lt_taken :
    after (vector [0x25, 0x20, 0x00] [(.flags, 2)]) [.pc] = some [0x0020] := by decide

theorem test_jump_lt_falls_through :
    after (vector [0x25, 0x20, 0x00] [(.flags, 5)]) [.pc] = some [3] := by decide

theorem test_jump_geq_taken :
    after (vector [0x26, 0x20, 0x00] [(.flags, 1)]) [.pc] = some [0x0020] := by decide

theorem test_jump_geq_falls_through :
    after (vector [0x26, 0x20, 0x00] [(.flags, 2)]) [.pc] = some [3] := by decide

theorem test_jump_leq_taken :
    after (vector [0x27, 0x20, 0x00] [(.flags, 1)]) [.pc] = some [0x0020] := by decide

theorem test_jump_leq_falls_through :
    after (vector [0x27, 0x20, 0x00] [(.flags, 4)]) [.pc] = some [3] := by decide

theorem test_call :
    after (vector [0x28, 0x0C, 0x00] [(.sp, 0x0015), (.bp, 0x0013)]) [.x5, .x6, .x7, .bp, .sp, .pc] = some [0x0015, 0x0013, 3, 0x0015, 0x0015, 0x000C] := by decide

theorem test_ret :
    after (vector [0x02] [(.x5, 0x0015), (.x6, 0x0013), (.x7, 9), (.sp, 0x0017)]) [.pc, .sp, .bp, .x7] = some [9, 0x0015, 0x0013, 9] := by decide

theorem test_halt :
    memAfter (vector [0x03] []) 0 1 = some ([0x03], .halted) := by decide

theorem test_noop :
    after (vector [0x04] [(.pc, 7)]) [.pc, .sp] = some [8, 8] := by decide

/-! ### Reset, loading and placing an instruction -/

theorem test_reset_is_the_empty_image : loadImage HostParams.default [] = .ok State.reset := by rfl

theorem test_reset_first_step :
    step State.reset = .next (State.reset.setEngine (.faulted (.outOfBoundsExecution 0))) := by rfl

/-- spec/70_reset_and_hazards.md R186, R188: a header with a static size of 2, two static bytes, one HALT. -/
def headerImage : List Byte := [0xBE, 0xEF, 0xCA, 0xFE, 1, 0, 0, 0, 0, 0, 0, 2, 0, 0x11, 0x22, 0x03]

theorem test_load_header :
    (loadImage HostParams.default headerImage).toOption.map
        (fun s => (s.reg .pc, s.reg .sp, s.cfg.staticSize, s.cfg.programSize, s.mem)) =
      some (2, 3, 2, 3, [(0, 0x11), (1, 0x22), (2, 0x03)]) := by rfl

theorem test_load_refuses_truncated_header :
    loadImage HostParams.default [0xBE, 0xEF, 0xCA, 0xFE, 1] = .error .truncatedHeader := by rfl

theorem test_load_refuses_endianness :
    loadImage HostParams.default [0xBE, 0xEF, 0xCA, 0xFE, 1, 0, 1, 0, 0, 0, 0, 0, 0] = .error .endianness := by rfl

theorem test_placed_instruction_runs :
    after (State.reset.withFetchWord 32 0xABFF0260) [.x2, .pc, .x1] = some [0xABFF, 4, 0] := by decide

/-! ### Hypotheses that are met: one witness for each obligation that has any, a boundary value for each clause -/

/-- `vector` with PC at an address, the instruction's bytes there as well. -/
def vectorAt (pc : Word) (code : List Byte) : State := vector [] [(.pc, pc)] pc.toNat code

/-- A machine whose program fills the 512-byte buffer, so that an instruction can reach beyond it. -/
def fullProgram (pc : Word) (code : List Byte) : State :=
  let s := vectorAt pc code
  { s with cfg := { s.cfg with programSize := 512, stackSize := 0 } }

theorem witness_EncodeInvertsDecode : decode [0x80, 0x02, 0x01, 0xFF] = .ok (.add .x2 .x1) := by rfl

theorem witness_LengthFromClassBits :
    decode (0x28 :: [0x34, 0x12]) = .ok (.call 0x1234) ∧ 0xE0 ≤ (0xE0 : Byte).toNat ∧ 0xE0 ≤ (0xFF : Byte).toNat :=
  ⟨rfl, by decide, by decide⟩

theorem witness_StepRunsDecodedInstruction :
    Fetching (vector [0x00] [(.pc, 7)]) ∧ decode (fetchBytes (vector [0x00] [(.pc, 7)])) = .ok .noop :=
  ⟨by decide, rfl⟩

theorem witness_StepRunsStoredInstruction :
    Fetching (fullProgram 509 [0x80, 0x02, 0x01]) ∧
      ((fullProgram 509 [0x80, 0x02, 0x01]).reg .pc).toNat + (Instr.add .x2 .x1).size ≤
        (fullProgram 509 [0x80, 0x02, 0x01]).cfg.memSize ∧
      ∀ k, k < (Instr.add .x2 .x1).size → (encode (.add .x2 .x1))[k]? =
        some ((fullProgram 509 [0x80, 0x02, 0x01]).byteAt (((fullProgram 509 [0x80, 0x02, 0x01]).reg .pc).toNat + k)) :=
  by decide

/-- `vector` with one static byte, so that address 0 is below the code. -/
def withStaticByte (pc : Word) : State :=
  let s := vector [0x00] [(.pc, pc)]
  { s with cfg := { s.cfg with staticSize := 1 } }

theorem witness_OutOfBoundsExecutionStops :
    (withStaticByte 0).engine = .running ∧ ((withStaticByte 0).reg .pc).toNat < (withStaticByte 0).cfg.staticSize ∧
      (withStaticByte 8).engine = .running ∧ (withStaticByte 8).cfg.programSize ≤ ((withStaticByte 8).reg .pc).toNat := by
  decide

theorem no_encoding_starts_with_0x05 (i : Instr) : (encode i).head? ≠ some 0x05 := by
  cases i <;> simp [encode, encodeImm, encodeRegWord, encodeRegReg, encodeMemReg]

theorem witness_IllegalOpcodeStops :
    Fetching (vectorAt 7 [0x05]) ∧ ((vectorAt 7 [0x05]).reg .pc).toNat < (vectorAt 7 [0x05]).cfg.memSize ∧
      (vectorAt 7 [0x05]).byteAt ((vectorAt 7 [0x05]).reg .pc).toNat = 0x05 ∧
      ∀ i : Instr, (encode i).head? ≠ some 0x05 :=
  ⟨by decide, by decide, by decide, no_encoding_starts_with_0x05⟩

theorem witness_MissingOperandBytesStop :
    Fetching (fullProgram 510 [0x80, 0x02]) ∧
      ((fullProgram 510 [0x80, 0x02]).reg .pc).toNat < (fullProgram 510 [0x80, 0x02]).cfg.memSize ∧
      (encode (.add .x2 .x1)).head? =
        some ((fullProgram 510 [0x80, 0x02]).byteAt ((fullProgram 510 [0x80, 0x02]).reg .pc).toNat) ∧
      (fullProgram 510 [0x80, 0x02]).cfg.memSize <
        ((fullProgram 510 [0x80, 0x02]).reg .pc).toNat + (Instr.add .x2 .x1).size := by decide

/-- The premises of `IllegalRegisterStops` before its clauses. -/
abbrev InstructionAtPc (s : State) (i : Instr) : Prop :=
  Fetching s ∧ (s.reg .pc).toNat + i.size ≤ s.cfg.memSize ∧ (encode i).head? = some (s.byteAt (s.reg .pc).toNat)

theorem witness_IllegalRegisterStops_reg :
    InstructionAtPc (vectorAt 6 [0x40, 12]) (.not .x0) ∧ (Instr.not .x0).shape = .reg ∧
      11 < ((vectorAt 6 [0x40, 12]).byteAt (((vectorAt 6 [0x40, 12]).reg .pc).toNat + 1)).toNat := by decide

theorem witness_IllegalRegisterStops_regImm_regMem :
    (InstructionAtPc (vectorAt 4 [0x60, 12, 0, 0]) (.movRegImm .x0 0) ∧ (Instr.movRegImm .x0 0).shape = .regImm ∧
      11 < ((vectorAt 4 [0x60, 12, 0, 0]).byteAt (((vectorAt 4 [0x60, 12, 0, 0]).reg .pc).toNat + 1)).toNat) ∧
    (InstructionAtPc (vectorAt 4 [0xA0, 255, 0, 0]) (.movRegMem .x0 0) ∧ (Instr.movRegMem .x0 0).shape = .regMem ∧
      11 < ((vectorAt 4 [0xA0, 255, 0, 0]).byteAt (((vectorAt 4 [0xA0, 255, 0, 0]).reg .pc).toNat + 1)).toNat) := by
  decide

theorem witness_IllegalRegisterStops_regReg :
    (InstructionAtPc (vectorAt 5 [0x80, 12, 12]) (.add .x0 .x0) ∧ (Instr.add .x0 .x0).shape = .regReg ∧
      11 < ((vectorAt 5 [0x80, 12, 12]).byteAt (((vectorAt 5 [0x80, 12, 12]).reg .pc).toNat + 1)).toNat) ∧
    (InstructionAtPc (vectorAt 5 [0x80, 11, 12]) (.add .x0 .x0) ∧
      ((vectorAt 5 [0x80, 11, 12]).byteAt (((vectorAt 5 [0x80, 11, 12]).reg .pc).toNat + 1)).toNat ≤ 11 ∧
      11 < ((vectorAt 5 [0x80, 11, 12]).byteAt (((vectorAt 5 [0x80, 11, 12]).reg .pc).toNat + 2)).toNat) := by decide

theorem witness_IllegalRegisterStops_memReg :
    InstructionAtPc (vectorAt 4 [0xC0, 0, 0, 12]) (.movMemReg 0 .x0) ∧ (Instr.movMemReg 0 .x0).shape = .memReg ∧
      11 < ((vectorAt 4 [0xC0, 0, 0, 12]).byteAt (((vectorAt 4 [0xC0, 0, 0, 12]).reg .pc).toNat + 3)).toNat := by decide

theorem witness_HaltedAndFaultedAreTerminal :
    ((vector []).setEngine .halted).engine ≠ .running ∧
      ((vector []).setEngine (.faulted (.divideByZero 0))).engine ≠ .running := by decide

theorem witness_FatalErrorsArePrecise :
    (vector [0x83, 0x00, 0x01]).engine = .running ∧
      ∃ t, step (vector [0x83, 0x00, 0x01]) = .next t ∧ t.engine = .faulted (.divideByZero 0) :=
  ⟨rfl, _, rfl, rfl⟩

theorem witness_StepCountsExecutedInstructions :
    (vector [0x83, 0x00, 0x01]).engine = .running ∧ (vector [0x04]).engine = .running ∧
      (∃ t, step (vector [0x83, 0x00, 0x01]) = .next t ∧ t.BadEnd) ∧
      ∃ t, step (vector [0x04]) = .next t ∧ ¬t.BadEnd :=
  ⟨rfl, rfl, ⟨_, rfl, _, rfl⟩, ⟨_, rfl, fun h => by obtain ⟨c, hc⟩ := h; cases hc⟩⟩

theorem witness_FatalErrorsOfExecution :
    (vector [] [(.sp, 1)]).engine = .running ∧
      (∃ t, exec (.divs .x0 .x1) (vector [] [(.sp, 1)]) = .next t ∧ t.engine = .faulted (.divideByZero 0)) ∧
      (∃ t, exec (.movMemReg 511 .x0) (vector [] [(.sp, 1)]) = .next t ∧
        t.engine = .faulted (.outOfBoundsAccess 511)) ∧
      (∃ t, exec (.pop .x0) (vector [] [(.sp, 1)]) = .next t ∧ t.engine = .faulted (.outOfBoundsAccess 0xFFFF)) ∧
      (∃ t, exec .cmp (vector [] [(.sp, 1)]) = .next t ∧ t.engine = .faulted (.outOfBoundsAccess 0xFFFD)) :=
  ⟨rfl, ⟨_, rfl, rfl⟩, ⟨_, rfl, rfl⟩, ⟨_, rfl, rfl⟩, ⟨_, rfl, rfl⟩⟩

theorem witness_StepKeepsInvariant :
    (vector [0x20, 0xAD, 0xDE]).Inv ∧ ∃ t, step (vector [0x20, 0xAD, 0xDE]) = .next t ∧ t.mem ≠ (vector []).mem :=
  ⟨by decide, _, rfl, by decide⟩

theorem witness_ConfigurationIsFixed : ∃ t, Reaches (vector [0x04]) t ∧ t.reg .pc = 1 := ⟨_, ⟨1, rfl⟩, rfl⟩

theorem witness_ReadOnlyProgramNeverChanges :
    (State.readOnly (vector [0x20, 0xAD, 0xDE])).cfg.programReadonly = true ∧
      ∃ t, Reaches (State.readOnly (vector [0x20, 0xAD, 0xDE])) t ∧ t.byteAt 8 = 0xAD ∧ 7 < t.cfg.programSize :=
  ⟨rfl, _, ⟨1, rfl⟩, by decide, by decide⟩

theorem witness_OnlyListedInstructionsWriteRegister :
    (vector [0x40, 0x03]).engine = .running ∧ Reg.x3 ≠ .pc ∧
      ∃ t, step (vector [0x40, 0x03]) = .next t ∧ t.reg .x3 ≠ (vector [0x40, 0x03]).reg .x3 :=
  ⟨rfl, by decide, _, rfl, by decide⟩

theorem witness_OnlyStoresChangeMemory :
    ∃ t, step (vector [0x20, 0xAD, 0xDE]) = .next t ∧ t.byteAt 9 ≠ (vector [0x20, 0xAD, 0xDE]).byteAt 9 :=
  ⟨_, rfl, by decide⟩

theorem witness_HaltedOnlyByHaltOrIllegalWrite :
    (vector [0x03]).engine = .running ∧ (∃ t, step (vector [0x03]) = .next t ∧ t.engine = .halted) ∧
      (State.readOnly (vector [0xC0, 0x07, 0x00, 0x00])).engine = .running ∧
      ∃ t, step (State.readOnly (vector [0xC0, 0x07, 0x00, 0x00])) = .next t ∧ t.engine = .halted :=
  ⟨rfl, ⟨_, rfl, rfl⟩, rfl, ⟨_, rfl, rfl⟩⟩

theorem witness_LoadedImageState :
    (∃ s, loadImage HostParams.default headerImage = .ok s) ∧ headerImage.take 4 = [0xBE, 0xEF, 0xCA, 0xFE] ∧
      (∃ s, loadImage HostParams.default [0x03] = .ok s) ∧ ([0x03] : List Byte).take 4 ≠ [0xBE, 0xEF, 0xCA, 0xFE] :=
  ⟨⟨_, rfl⟩, by decide, ⟨_, rfl⟩, by decide⟩

/-- Host parameters that differ from the defaults in every field. -/
def otherHost : HostParams where
  stackSize := 3
  memSize := 8
  programReadonly := true
  regMemLeft := .memory
  memRegLeft := .register
  linkSp := .x1
  linkBp := .x2
  linkRa := .x3

theorem test_load_keeps_host_parameters :
    (loadImage otherHost headerImage).toOption.map (fun s => s.cfg) =
      some { staticSize := 2, programSize := 3, stackSize := 3, memSize := 8, programReadonly := true,
             regMemLeft := .memory, memRegLeft := .register, linkSp := .x1, linkBp := .x2, linkRa := .x3 } := by decide

theorem witness_LoadedImageMeetsInvariant :
    ∃ s, loadImage HostParams.default headerImage = .ok s ∧ s.cfg.linksOk = true ∧ s.cfg.staticSize < s.cfg.programSize :=
  ⟨_, rfl, by decide, by decide⟩

/-- Two static bytes before the code, and `STATIC_SIZE` equal to `PROGRAM_SIZE`: no code. -/
theorem witness_SegmentsDecideAccess :
    (let c := { vectorConfig with staticSize := 2 }
     c.wf = true ∧ segment c 0 = .programStatic ∧ segment c 1 = .programStatic ∧ segment c 2 = .programCode ∧
      segment c 7 = .programCode ∧ segment c 8 = .stack ∧ segment c 63 = .stack ∧ segment c 64 = .heap ∧
      segment c 511 = .heap ∧ segment c 512 = .outside ∧ segment c 0xFFFF = .outside) ∧
    (let c := { vectorConfig with staticSize := 8 }
     c.wf = true ∧ segment c 7 = .programStatic ∧ segment c 8 = .stack) := by decide

theorem witness_DivResult : (vector [] [(.x1, 1)]).reg .x1 ≠ 0 := by decide

theorem witness_DivsResult :
    (vector [] [(.x0, 0x8000), (.x1, 0xFFFF)]).reg .x1 ≠ 0 ∧
      (vector [] [(.x0, 0x8000), (.x1, 0xFFFF)]).reg .x0 = 0x8000 ∧
      (vector [] [(.x0, 0x8000), (.x1, 0xFFFF)]).reg .x1 = 0xFFFF := by decide

theorem witness_DivideByZeroStops : (vector []).reg .x1 = 0 := by decide

theorem witness_illegal_register_byte : 11 < (12 : Byte).toNat ∧ 11 < (255 : Byte).toNat := by decide

/-- The two magnitudes where the clauses of `IsRounded` meet, and a tie. -/
theorem witness_RoundingIsNearestEven :
    0 < 65520 ∧ 0 < 1 ∧ round16 false 65520 1 = 0x7C00 ∧ round16 true 65519 1 = 0xFBFF ∧
      round16 false 2049 2048 = 0x3C00 := by decide

/-- The operands of a half-precision instruction. -/
def halves (a b : Word) : State := vector [] [(.x0, a), (.x1, b)]

theorem witness_operands (a b : Word) : (halves a b).reg .x0 = a ∧ (halves a b).reg .x1 = b := ⟨rfl, rfl⟩

/-- A NaN, both infinities, both zeros, and the ends of the finite range. -/
theorem witness_half_classes :
    isNaN 0x7C01 = true ∧ isNaN 0xFFFF = true ∧ isInfinite 0x7C00 = true ∧ isInfinite 0xFC00 = true ∧
      isZero 0x0000 = true ∧ isZero 0x8000 = true ∧ isFinite 0x0001 = true ∧ isZero 0x0001 = false ∧
      isFinite 0xFBFF = true ∧ isZero 0xFBFF = false ∧ isNaN 0xFBFF = false := by decide

theorem witness_AddfResult :
    isNaN 0x7C01 = true ∧ (isInfinite 0x7C00 = true ∧ isInfinite 0xFC00 = true ∧ (0x7C00 : Word) ≠ 0xFC00) ∧
      (isInfinite 0xFC00 = true ∧ isFinite 0x7BFF = true) ∧ (isFinite 0x8000 = true ∧ isInfinite 0xFC00 = true) ∧
      (isFinite 0x8000 = true ∧ valueUnits 0x8000 + valueUnits 0x8000 = 0) ∧
      (isFinite 0x7BFF = true ∧ valueUnits 0x7BFF + valueUnits 0xFBFF = 0) ∧
      valueUnits 0x0001 + valueUnits 0x0001 ≠ 0 := by decide

theorem witness_SubfResult :
    isNaN 0xFFFF = true ∧ isInfinite 0xFC00 = true ∧ (isInfinite 0x7C00 = true ∧ (0x7C00 : Word) ≠ 0xFC00) ∧
      (isFinite 0x0000 = true ∧ isInfinite 0x7C00 = true) ∧ valueUnits 0x8000 - valueUnits 0x0000 = 0 ∧
      valueUnits 0x0000 - valueUnits 0x0001 ≠ 0 := by decide

theorem witness_MulfResult :
    isNaN 0x7C01 = true ∧ (isZero 0x8000 = true ∧ isInfinite 0x7C00 = true) ∧
      (isInfinite 0x7C00 = true ∧ isNaN 0x0001 = false ∧ isZero 0x0001 = false) ∧
      (isFinite 0x8000 = true ∧ isFinite 0xFBFF = true) ∧ (isZero 0x0001 = false ∧ isZero 0xFBFF = false) := by decide

theorem witness_DivfResult :
    isNaN 0x7C01 = true ∧ (isZero 0x8000 = true ∧ isZero 0x0000 = true) ∧ isInfinite 0xFC00 = true ∧
      (isInfinite 0x7C00 = true ∧ isFinite 0x0000 = true) ∧ (isFinite 0xFBFF = true ∧ isInfinite 0x7C00 = true) ∧
      (isFinite 0x0001 = true ∧ isZero 0x0001 = false ∧ isZero 0x8000 = true) ∧
      (isZero 0x8000 = true ∧ isFinite 0x0001 = true ∧ isZero 0x0001 = false) ∧
      (isFinite 0x7BFF = true ∧ isZero 0x7BFF = false ∧ isFinite 0x0001 = true) := by decide

theorem witness_AddfOfZeroKeepsValue :
    (isFinite ((halves 0xFBFF 0x8000).reg .x0) = true ∧ isZero ((halves 0xFBFF 0x8000).reg .x0) = false ∧
      isZero ((halves 0xFBFF 0x8000).reg .x1) = true) ∧
    (isZero ((halves 0x0000 0x0001).reg .x0) = true ∧ isFinite ((halves 0x0000 0x0001).reg .x1) = true ∧
      isZero ((halves 0x0000 0x0001).reg .x1) = false) := by decide

/-- The last word of the buffer, and the first bytes above a read-only program. -/
theorem witness_PushStoresWord :
    ((vector [] [(.sp, 510)]).mem.wf = true ∧ WordFits (vector [] [(.sp, 510)]) ((vector [] [(.sp, 510)]).reg .sp) ∧
      ¬WriteBlocked (vector [] [(.sp, 510)]) ((vector [] [(.sp, 510)]).reg .sp)) ∧
    ((State.readOnly (vector [])).mem.wf = true ∧
      WordFits (State.readOnly (vector [])) ((State.readOnly (vector [])).reg .sp) ∧
      ¬WriteBlocked (State.readOnly (vector [])) ((State.readOnly (vector [])).reg .sp)) := by decide

theorem witness_PopTakesWord :
    WordFits (vector [] [(.sp, 2)]) ((vector [] [(.sp, 2)]).reg .sp - 2) ∧
      WordFits (vector [] [(.sp, 512)]) ((vector [] [(.sp, 512)]).reg .sp - 2) := by decide

theorem witness_DupPushesCopy :
    (vector [] [(.sp, 10)] 8 [0x34, 0x12]).mem.wf = true ∧
      HoldsWord (vector [] [(.sp, 10)] 8 [0x34, 0x12]) ((vector [] [(.sp, 10)] 8 [0x34, 0x12]).reg .sp - 2) 0x1234 ∧
      WordFits (vector [] [(.sp, 10)] 8 [0x34, 0x12]) ((vector [] [(.sp, 10)] 8 [0x34, 0x12]).reg .sp - 2) ∧
      WordFits (vector [] [(.sp, 10)] 8 [0x34, 0x12]) ((vector [] [(.sp, 10)] 8 [0x34, 0x12]).reg .sp) ∧
      ¬WriteBlocked (vector [] [(.sp, 10)] 8 [0x34, 0x12]) ((vector [] [(.sp, 10)] 8 [0x34, 0x12]).reg .sp) := by decide

theorem witness_PushThenPopCopiesRegister :
    (vector []).mem.wf = true ∧ WordFits (vector []) ((vector []).reg .sp) ∧
      ¬WriteBlocked (vector []) ((vector []).reg .sp) := by decide

theorem witness_IllegalWriteHalts :
    (WordFits (State.readOnly (vector [] [(.sp, 7)])) ((State.readOnly (vector [] [(.sp, 7)])).reg .sp) ∧
      WriteBlocked (State.readOnly (vector [] [(.sp, 7)])) ((State.readOnly (vector [] [(.sp, 7)])).reg .sp) ∧
      WordFits (State.readOnly (vector [] [(.sp, 7)])) ((State.readOnly (vector [] [(.sp, 7)])).reg .sp - 2)) ∧
    (WordFits (State.readOnly (vector [])) 0 ∧ WriteBlocked (State.readOnly (vector [])) 0) := by decide

theorem witness_OutOfBoundsAccessStops :
    (¬WordFits (vector [] [(.sp, 511)]) ((vector [] [(.sp, 511)]).reg .sp) ∧
      WordFits (vector [] [(.sp, 511)]) ((vector [] [(.sp, 511)]).reg .sp - 2)) ∧
    (¬WordFits (vector [] [(.sp, 513)]) ((vector [] [(.sp, 513)]).reg .sp - 2) ∧
      WordFits (vector [] [(.sp, 513)]) ((vector [] [(.sp, 513)]).reg .sp - 4)) ∧
    (¬WordFits (vector [] [(.sp, 3)]) ((vector [] [(.sp, 3)]).reg .sp - 4) ∧
      WordFits (vector [] [(.sp, 3)]) ((vector [] [(.sp, 3)]).reg .sp - 2)) ∧
    ¬WordFits (vector []) 511 := by decide

theorem witness_LoadResult : WordFits (vector []) 0 ∧ WordFits (vector []) 510 ∧ ¬WordFits (vector []) 511 := by decide

theorem witness_StoreResult :
    ((vector []).mem.wf = true ∧ WordFits (vector []) 510 ∧ ¬WriteBlocked (vector []) 510) ∧
      (State.readOnly (vector [])).mem.wf = true ∧ WordFits (State.readOnly (vector [])) 8 ∧
      ¬WriteBlocked (State.readOnly (vector [])) 8 := by decide

theorem witness_CmpStackResult :
    WordFits (vector [] [(.sp, 12)] 8 [3, 0, 5, 0]) ((vector [] [(.sp, 12)] 8 [3, 0, 5, 0]).reg .sp - 4) ∧
      WordFits (vector [] [(.sp, 12)] 8 [3, 0, 5, 0]) ((vector [] [(.sp, 12)] 8 [3, 0, 5, 0]).reg .sp - 2) ∧
      HoldsWord (vector [] [(.sp, 12)] 8 [3, 0, 5, 0]) ((vector [] [(.sp, 12)] 8 [3, 0, 5, 0]).reg .sp - 4) 3 ∧
      HoldsWord (vector [] [(.sp, 12)] 8 [3, 0, 5, 0]) ((vector [] [(.sp, 12)] 8 [3, 0, 5, 0]).reg .sp - 2) 5 := by decide

/-- `vector` under the setting of `CMP_MEM_ORDER` that is not the default. -/
def swappedSides : State :=
  let s := vector [] [] 510 [5, 0]
  { s with cfg := { s.cfg with regMemLeft := .memory, memRegLeft := .register } }

theorem witness_CmpMemoryResults :
    (WordFits (vector [] [] 510 [5, 0]) 510 ∧ HoldsWord (vector [] [] 510 [5, 0]) 510 5 ∧
      (vector [] [] 510 [5, 0]).cfg.regMemLeft = .register ∧ (vector [] [] 510 [5, 0]).cfg.memRegLeft = .memory) ∧
    (WordFits swappedSides 510 ∧ HoldsWord swappedSides 510 5 ∧ swappedSides.cfg.regMemLeft = .memory ∧
      swappedSides.cfg.memRegLeft = .register) := by decide

theorem witness_CallSavesLinks_RetRestores : (vector []).cfg.linksOk = true := by decide

theorem witness_CallThenRetReturns :
    (vector []).cfg.linksOk = true ∧
      ∃ t, exec (.call 0x0004) (vector []) = .next t ∧ (t.setReg .x0 5).cfg = t.cfg ∧
        (t.setReg .x0 5).reg (vector []).cfg.linkSp = t.reg (vector []).cfg.linkSp ∧
        (t.setReg .x0 5).reg (vector []).cfg.linkBp = t.reg (vector []).cfg.linkBp ∧
        (t.setReg .x0 5).reg (vector []).cfg.linkRa = t.reg (vector []).cfg.linkRa :=
  ⟨by decide, _, rfl, rfl, rfl, rfl, rfl⟩

end Sys2Proof.Tests
end

section
/-! O4: the length of an instruction is a function of its class bits (30_encoding.md R51 to R53, R57, R59). -/

namespace Sys2Proof

open Sys2Proof.Laws

/-- Every instruction has the encoding facts that `Laws` states one instruction at a time. -/
theorem encodeShape (i : Instr) : EncodeShape.Statement i := by
  cases i with
  | dup => exact EncodeShape.dup
  | cmp => exact EncodeShape.cmp
  | ret => exact EncodeShape.ret
  | halt => exact EncodeShape.halt
  | noop => exact EncodeShape.noop
  | pushImm w => exact EncodeShape.pushImm w
  | jump a => exact EncodeShape.jump a
  | jumpEq a => exact EncodeShape.jumpEq a
  | jumpNeq a => exact EncodeShape.jumpNeq a
  | jumpGt a => exact EncodeShape.jumpGt a
  | jumpLt a => exact EncodeShape.jumpLt a
  | jumpGeq a => exact EncodeShape.jumpGeq a
  | jumpLeq a => exact EncodeShape.jumpLeq a
  | call a => exact EncodeShape.call a
  | not r => exact EncodeShape.not r
  | push r => exact EncodeShape.push r
  | pop r => exact EncodeShape.pop r
  | movRegImm r w => exact EncodeShape.movRegImm r w
  | add d b => exact EncodeShape.add d b
  | sub d b => exact EncodeShape.sub d b
  | mul d b => exact EncodeShape.mul d b
  | div d b => exact EncodeShape.div d b
  | adds d b => exact EncodeShape.adds d b
  | subs d b => exact EncodeShape.subs d b
  | muls d b => exact EncodeShape.muls d b
  | divs d b => exact EncodeShape.divs d b
  | addf d b => exact EncodeShape.addf d b
  | subf d b => exact EncodeShape.subf d b
  | mulf d b => exact EncodeShape.mulf d b
  | divf d b => exact EncodeShape.divf d b
  | or d b => exact EncodeShape.or d b
  | xor d b => exact EncodeShape.xor d b
  | and d b => exact EncodeShape.and d b
  | movRegReg d b => exact EncodeShape.movRegReg d b
  | cmpRegReg d b => exact EncodeShape.cmpRegReg d b
  | movRegMem r a => exact EncodeShape.movRegMem r a
  | cmpRegMem r a => exact EncodeShape.cmpRegMem r a
  | movMemReg a r => exact EncodeShape.movMemReg a r
  | cmpMemReg a r => exact EncodeShape.cmpMemReg a r

/-- `f.Makes i`: the form `f` makes `i` from some operands. -/
inductive Form.Makes : Form → Instr → Prop
  | none (i : Instr) : Form.Makes (.none i) i
  | imm (f : Word → Instr) (w : Word) : Form.Makes (.imm f) (f w)
  | reg (f : Reg → Instr) (r : Reg) : Form.Makes (.reg f) (f r)
  | regImm (f : Reg → Word → Instr) (r : Reg) (w : Word) : Form.Makes (.regImm f) (f r w)
  | regReg (f : Reg → Reg → Instr) (rd rs : Reg) : Form.Makes (.regReg f) (f rd rs)
  | regMem (f : Reg → Word → Instr) (r : Reg) (a : Word) : Form.Makes (.regMem f) (f r a)
  | memReg (f : Word → Reg → Instr) (a : Word) (r : Reg) : Form.Makes (.memReg f) (f a r)

/-- A form decodes to nothing but the instructions it makes: each branch of the decoder is a refusal or a constructor of
`Form.Makes`. -/
theorem Form.makes_of_decode_ok (f : Form) (bs : List Byte) (i : Instr) (h : f.decode bs = .ok i) : f.Makes i := by
  unfold Form.decode at h
  repeat' split at h
  all_goals cases h <;> constructor

/-- The instructions that a row of the opcode map makes are encoded with that row's opcode byte (R57). -/
theorem encode_head_of_makes (op : Byte) (f : Form) (i : Instr) (hrow : (op, f) ∈ opcodeTable) (hi : f.Makes i) :
    (encode i).head? = some op := by
  simp only [opcodeTable, List.cons_append, List.nil_append, List.mem_cons, List.not_mem_nil,
    Prod.mk.injEq] at hrow
  repeat' rcases hrow with ⟨rfl, rfl⟩ | hrow
  all_goals
    cases hi
    rfl

/-- The decoder answers an instruction only by a row of the opcode map. -/
theorem decode_cons_ok (op : Byte) (rest : List Byte) (i : Instr) (h : decode (op :: rest) = .ok i) :
    ∃ f, (op, f) ∈ opcodeTable ∧ f.decode rest = .ok i := by
  unfold decode at h
  cases hf : opcodeForm op with
  | none => simp [hf] at h
  | some f => exact ⟨f, opcodeForm_mem op f hf, by simpa [hf] using h⟩

/-- An opcode byte is refused where the opcode map has no form for it (R59). -/
theorem decode_cons_of_opcodeForm_none (op : Byte) (rest : List Byte) (h : opcodeForm op = none) :
    decode (op :: rest) = .error (.illegalOpcode op) := by
  simp [decode, h]

/-- The first byte an instruction is decoded from is the first byte it is encoded to. -/
theorem encode_head_of_decode_ok (op : Byte) (rest : List Byte) (i : Instr) (h : decode (op :: rest) = .ok i) :
    (encode i).head? = some op := by
  obtain ⟨f, hrow, hf⟩ := decode_cons_ok op rest i h
  exact encode_head_of_makes op f i hrow (f.makes_of_decode_ok rest i hf)

/-- The class bits of the opcode byte give the shape class of the decoded instruction (R51, R52). -/
theorem shape_of_decode_ok (op : Byte) (rest : List Byte) (i : Instr) (h : decode (op :: rest) = .ok i) :
    Shape.ofClass (opcodeClass op) = some i.shape := by
  obtain ⟨-, op', rest', henc, -, hshape⟩ := encodeShape i
  have hop : op' = op := by simpa [henc] using encode_head_of_decode_ok op rest i h
  rwa [hop] at hshape

/-- The list of lengths in R53 is the size of each class's shape. -/
theorem lengths_getElem?_of_ofClass (c : Nat) (sh : Shape) (h : Shape.ofClass c = some sh) :
    [1, 3, 2, 4, 3, 4, 4][c]? = some sh.size := by
  unfold Shape.ofClass at h
  split at h <;> cases h <;> rfl

/-- No row of the opcode map has an opcode byte without a shape class: class 7 is illegal (R52, R53). -/
theorem opcodeForm_none_of_ofClass_none (op : Byte) (h : Shape.ofClass (opcodeClass op) = none) :
    opcodeForm op = none := by
  cases hf : opcodeForm op with
  | none => rfl
  | some f =>
    have hshape := opcodeForm_shape (op, f) (opcodeForm_mem op f hf)
    rw [h] at hshape
    cases hshape

theorem opcodeClass_eq_seven (op : Byte) (h : 0xE0 ≤ op.toNat) : opcodeClass op = 7 := by
  have hlt := op.isLt
  unfold opcodeClass
  omega

/-- Settles O4: the decoded instruction's shape is that of the opcode byte's class, and the encoding is as long as the
shape says; class 7 has no shape, so no row of the opcode map. -/
theorem lengthFromClassBits : Obligations.LengthFromClassBits := by
  unfold Obligations.LengthFromClassBits
  constructor
  · intro op rest i h
    obtain ⟨hlen, -⟩ := encodeShape i
    rw [hlen]
    exact lengths_getElem?_of_ofClass (opcodeClass op) i.shape (shape_of_decode_ok op rest i h)
  · intro op rest h
    apply decode_cons_of_opcodeForm_none
    apply opcodeForm_none_of_ofClass_none
    rw [opcodeClass_eq_seven op h]
    rfl

end Sys2Proof
end

section
/-! O33, O34: the bitwise instructions (41_arithmetic.md R80, R99 to R102). -/

namespace Sys2Proof.Machine

/-! ### The ALU functions, one bit at a time -/

@[simp] theorem aluOr_getLsbD (a b : Word) (i : Nat) : (aluOr a b).getLsbD i = (a.getLsbD i || b.getLsbD i) :=
  BitVec.getLsbD_or

@[simp] theorem aluXor_getLsbD (a b : Word) (i : Nat) : (aluXor a b).getLsbD i = (a.getLsbD i ^^ b.getLsbD i) :=
  BitVec.getLsbD_xor

@[simp] theorem aluAnd_getLsbD (a b : Word) (i : Nat) : (aluAnd a b).getLsbD i = (a.getLsbD i && b.getLsbD i) :=
  BitVec.getLsbD_and

/-- The mask of R102 is all ones, so NOT is the complement. -/
theorem aluNot_eq_not (a : Word) : aluNot a = ~~~a :=
  BitVec.xor_allOnes

theorem aluNot_getLsbD (a : Word) (i : Nat) (hi : i < 16) : (aluNot a).getLsbD i = !a.getLsbD i := by
  rw [aluNot_eq_not, BitVec.getLsbD_not, decide_eq_true hi, Bool.true_and]

/-! ### The frame of an instruction that writes one register -/

/-- Writing one register and retiring is the effect `WroteReg` describes: the advance adds to PC as the write left it. -/
theorem wroteReg_retire_setReg (sh : Shape) (s : State) (rd : Reg) (v : Word) :
    WroteReg s (retire sh (s.setReg rd v)) sh.size rd v := by
  refine ⟨?dest, ?pc, ⟨rfl, ?others⟩, fun _ => rfl, rfl, rfl⟩
  case dest =>
    intro hrd
    simp [hrd]
  case pc => simp [eq_comm]
  case others =>
    intro r hr
    obtain ⟨hrd, hpc⟩ : r ≠ rd ∧ r ≠ .pc := by simpa using hr
    simp [hrd, hpc]

/-- The two-operand template of R80 completes with the function's word in the first register. -/
theorem finish_aluTwo_wroteReg (f : Word → Word → Word) (rd rs : Reg) (s : State) :
    ∃ t, finish .regReg s (aluTwo f rd rs s) = .next t ∧ WroteReg s t 3 rd (f (s.reg rd) (s.reg rs)) :=
  ⟨_, finish_ok .regReg s _, wroteReg_retire_setReg .regReg s rd _⟩

/-! ### The four instructions -/

theorem exec_or_eq (rd rs : Reg) (s : State) : exec (.or rd rs) s = finish .regReg s (aluTwo aluOr rd rs s) := rfl

theorem exec_xor_eq (rd rs : Reg) (s : State) : exec (.xor rd rs) s = finish .regReg s (aluTwo aluXor rd rs s) := rfl

theorem exec_and_eq (rd rs : Reg) (s : State) : exec (.and rd rs) s = finish .regReg s (aluTwo aluAnd rd rs s) := rfl

theorem exec_not_eq (r : Reg) (s : State) :
    exec (.not r) s = finish .reg s (.ok (s.setReg r (aluNot (s.reg r)))) := rfl

end Sys2Proof.Machine

namespace Sys2Proof

open Sys2Proof.Machine

/-- A register-id byte above 11 is refused (R55, R75). -/
theorem decodeReg_of_gt (b : Byte) (hb : 11 < b.toNat) : decodeReg b = .error (.illegalRegister b) := by
  have hbad : regIdOk b = false := by simpa [regIdOk] using hb
  exact (decodeReg_error b _).2 ⟨hbad, rfl⟩

/-- An instruction of class `REG` is refused at decode when its register id is above 11 (R54, R55). -/
theorem decode_reg_of_gt (op b : Byte) (f : Reg → Instr) (rest : List Byte) (hform : opcodeForm op = some (.reg f))
    (hb : 11 < b.toNat) : decode (op :: b :: rest) = .error (.illegalRegister b) := by
  simp [decode, hform, Form.decode, decodeReg_of_gt b hb]

/-- Settles O33: each instruction is the two-operand template of R80 for its ALU function, which is bitwise. -/
theorem bitwiseResults : Obligations.BitwiseResults := by
  unfold Obligations.BitwiseResults
  intro s rd rs
  refine ⟨rfl, rfl, rfl, ?or, ?xor, ?and⟩
  case or =>
    obtain ⟨t, hexec, hwrote⟩ := finish_aluTwo_wroteReg aluOr rd rs s
    exact ⟨t, _, (exec_or_eq rd rs s).trans hexec, hwrote, fun i _ => aluOr_getLsbD _ _ i⟩
  case xor =>
    obtain ⟨t, hexec, hwrote⟩ := finish_aluTwo_wroteReg aluXor rd rs s
    exact ⟨t, _, (exec_xor_eq rd rs s).trans hexec, hwrote, fun i _ => aluXor_getLsbD _ _ i⟩
  case and =>
    obtain ⟨t, hexec, hwrote⟩ := finish_aluTwo_wroteReg aluAnd rd rs s
    exact ⟨t, _, (exec_and_eq rd rs s).trans hexec, hwrote, fun i _ => aluAnd_getLsbD _ _ i⟩

/-- Settles O34: the encoding is the opcode byte and the id, the decoder checks that id, and the written word is the
complement of the old one. -/
theorem notResult : Obligations.NotResult := by
  unfold Obligations.NotResult
  refine ⟨fun r => rfl, fun b rest hb => decode_reg_of_gt 0x40 b .not rest rfl hb, ?result⟩
  case result =>
    intro s r
    refine ⟨_, aluNot (s.reg r), ?_, wroteReg_retire_setReg .reg s r _, fun i hi => aluNot_getLsbD _ i hi⟩
    rw [exec_not_eq, finish_ok]

end Sys2Proof
end

section
/-! O47, O48: the moves into a register from an immediate and from a register (43_move.md R120 to R122). -/

namespace Sys2Proof.Machine

/-! ### A plain copy into a register -/

/-- A copy into a register is that register's write, once the source operand gives its word (R120). -/
theorem copyWord_reg_of_readSource (rd : Reg) (src : Source) (s : State) (v : Word) (hsrc : readSource s src = .ok v) :
    copyWord (.reg rd) src s = .ok (s.setReg rd v) :=
  (copyWord_ok _ _ _ _).2 ⟨v, hsrc, rfl⟩

/-- A copy into a register completes, for every shape class, with the source operand's word in the register. -/
theorem finish_copyWord_reg_wroteReg (sh : Shape) (rd : Reg) (src : Source) (s : State) (v : Word)
    (hsrc : readSource s src = .ok v) :
    ∃ t, finish sh s (copyWord (.reg rd) src s) = .next t ∧ WroteReg s t sh.size rd v := by
  rw [copyWord_reg_of_readSource rd src s v hsrc, finish_ok]
  exact ⟨_, rfl, wroteReg_retire_setReg sh s rd v⟩

/-! ### The two instructions -/

theorem exec_movRegImm_eq (r : Reg) (imm : Word) (s : State) :
    exec (.movRegImm r imm) s = finish .regImm s (copyWord (.reg r) (.imm imm) s) := rfl

theorem exec_movRegReg_eq (rd rs : Reg) (s : State) :
    exec (.movRegReg rd rs) s = finish .regReg s (copyWord (.reg rd) (.reg rs) s) := rfl

end Sys2Proof.Machine

namespace Sys2Proof

open Sys2Proof.Machine

/-- A word is the little-endian number of its two bytes (R38). -/
theorem toNat_eq_loByte_add_hiByte (w : Word) : w.toNat = (loByte w).toNat + 256 * (hiByte w).toNat := by
  rw [← leWord_toNat, leWord_lo_hi]

/-- An instruction of class `REG_IMM` is refused at decode when its register id is above 11 (R54, R55). -/
theorem decode_regImm_of_gt (op b lo hi : Byte) (f : Reg → Word → Instr) (rest : List Byte)
    (hform : opcodeForm op = some (.regImm f)) (hb : 11 < b.toNat) :
    decode (op :: b :: lo :: hi :: rest) = .error (.illegalRegister b) := by
  simp [decode, hform, Form.decode, decodeReg_of_gt b hb]

/-- An instruction of class `REG_REG` is refused at decode when its first register id is above 11, whatever the second one
is (R54, R55, R168). -/
theorem decode_regReg_of_rd_gt (op d b : Byte) (f : Reg → Reg → Instr) (rest : List Byte)
    (hform : opcodeForm op = some (.regReg f)) (hd : 11 < d.toNat) :
    decode (op :: d :: b :: rest) = .error (.illegalRegister d) := by
  simp [decode, hform, Form.decode, decodeReg_of_gt d hd]

/-- An instruction of class `REG_REG` whose first register id is legal is refused at decode when its second one is above
11 (R54, R55). -/
theorem decode_regReg_of_rs_gt (op b : Byte) (rd : Reg) (f : Reg → Reg → Instr) (rest : List Byte)
    (hform : opcodeForm op = some (.regReg f)) (hb : 11 < b.toNat) :
    decode (op :: rd.id :: b :: rest) = .error (.illegalRegister b) := by
  simp [decode, hform, Form.decode, decodeReg_of_gt b hb]

/-- Settles O47: the immediate is encoded by its two bytes, the decoder checks the one register id, and the effect is a
copy into a register of a source that is the immediate itself. -/
theorem movRegImmResult : Obligations.MovRegImmResult := by
  unfold Obligations.MovRegImmResult
  refine ⟨?encoding, ?refusal, ?result⟩
  case encoding =>
    intro r imm
    exact ⟨loByte imm, hiByte imm, rfl, toNat_eq_loByte_add_hiByte imm⟩
  case refusal =>
    intro b lo hi rest hb
    exact decode_regImm_of_gt 0x60 b lo hi .movRegImm rest rfl hb
  case result =>
    intro s r imm
    rw [exec_movRegImm_eq]
    exact finish_copyWord_reg_wroteReg .regImm r (.imm imm) s imm rfl

/-- Settles O48: the decoder checks both register ids, the destination's first, and the effect is a copy into a register
of the source register's word from before the advance, so PC is read as the instruction's own address. -/
theorem movRegRegResult : Obligations.MovRegRegResult := by
  unfold Obligations.MovRegRegResult
  refine ⟨?encoding, ?refusalRd, ?refusalRs, ?result⟩
  case encoding =>
    intro rd rs
    rfl
  case refusalRd =>
    intro d b rest hd
    exact decode_regReg_of_rd_gt 0x8F d b .movRegReg rest rfl hd
  case refusalRs =>
    intro rd b rest hb
    exact decode_regReg_of_rs_gt 0x8F b rd .movRegReg rest rfl hb
  case result =>
    intro s rd rs
    rw [exec_movRegReg_eq]
    exact finish_copyWord_reg_wroteReg .regReg rd (.reg rs) s (s.reg rs) rfl

end Sys2Proof
end

section
/-! O54, O57, O60: the jumps that test one flag bit, RET and NOOP (45_control.md R140 to R145, R149, R152). -/

namespace Sys2Proof.Machine

/-! ### The end of an instruction that writes PC alone -/

/-- Writing PC and counting is the effect `Jumped` describes. -/
theorem jumped_count_setReg_pc (s : State) (target : Word) : Jumped s (s.setReg .pc target).count target := by
  refine ⟨?pc, ⟨rfl, ?others⟩, fun _ => rfl, rfl, rfl⟩
  case pc => simp
  case others =>
    intro r hr
    have hpc : r ≠ .pc := by simpa using hr
    simp [hpc]

/-- The common template of the jumps completes, at its address or past the 3 bytes of class `IMM` (R140). -/
theorem jumpIf_jumped (taken : Bool) (addr : Word) (s : State) :
    ∃ t, jumpIf taken addr s = .next t ∧ Jumped s t (if taken = true then addr else s.reg .pc + 3) :=
  ⟨_, rfl, jumped_count_setReg_pc s _⟩

/-- Retiring a state is a jump to the next instruction: the advance writes PC alone (R77, R78). -/
theorem jumped_retire (sh : Shape) (s : State) : Jumped s (retire sh s) (s.reg .pc + BitVec.ofNat 16 sh.size) :=
  jumped_count_setReg_pc s _

/-! ### The link registers -/

/-- A general register is none of the pointer registers, whose indices start at 8 (R11). -/
theorem ne_pointer_of_isGeneral (r : Reg) (h : r.isGeneral = true) : r ≠ .bp ∧ r ≠ .sp ∧ r ≠ .pc := by
  refine ⟨?_, ?_, ?_⟩ <;> (rintro rfl; cases h)

theorem linksOk_isGeneral (c : Config) (h : c.linksOk = true) :
    c.linkSp.isGeneral = true ∧ c.linkBp.isGeneral = true ∧ c.linkRa.isGeneral = true := by
  simp only [Config.linksOk, Bool.and_eq_true] at h
  obtain ⟨⟨⟨⟨⟨hsp, hbp⟩, hra⟩, -⟩, -⟩, -⟩ := h
  exact ⟨hsp, hbp, hra⟩

/-! ### The instructions -/

theorem exec_jump_eq (a : Word) (s : State) : exec (.jump a) s = jumpIf true a s := rfl

theorem exec_jumpEq_eq (a : Word) (s : State) : exec (.jumpEq a) s = jumpIf ((s.reg .flags).getLsbD 0) a s := rfl

theorem exec_jumpGt_eq (a : Word) (s : State) : exec (.jumpGt a) s = jumpIf ((s.reg .flags).getLsbD 2) a s := rfl

theorem exec_jumpLt_eq (a : Word) (s : State) : exec (.jumpLt a) s = jumpIf ((s.reg .flags).getLsbD 1) a s := rfl

theorem exec_noop_eq (s : State) : exec .noop s = .next (retire .none s) := rfl

/-- The state RET leaves (R149): three register writes, counted. -/
def retState (s : State) : State :=
  (((s.setReg .bp (s.reg s.cfg.linkBp)).setReg .sp (s.reg s.cfg.linkSp)).setReg .pc (s.reg s.cfg.linkRa)).count

theorem exec_ret_eq (s : State) : exec .ret s = .next (retState s) := rfl

theorem retState_reg_pc (s : State) : (retState s).reg .pc = s.reg s.cfg.linkRa := by simp [retState]

theorem retState_reg_sp (s : State) : (retState s).reg .sp = s.reg s.cfg.linkSp := by simp [retState]

theorem retState_reg_bp (s : State) : (retState s).reg .bp = s.reg s.cfg.linkBp := by simp [retState]

/-- RET writes no register but BP, SP and PC. -/
theorem retState_sameRegsBut (s : State) : SameRegsBut s (retState s) [.bp, .sp, .pc] := by
  refine ⟨rfl, fun r hr => ?_⟩
  obtain ⟨hbp, hsp, hpc⟩ : r ≠ .bp ∧ r ≠ .sp ∧ r ≠ .pc := by simpa using hr
  simp [retState, hbp, hsp, hpc]

/-- RET keeps every general register, so the link registers too. -/
theorem retState_reg_of_isGeneral (s : State) (r : Reg) (h : r.isGeneral = true) : (retState s).reg r = s.reg r := by
  obtain ⟨-, hsame⟩ := retState_sameRegsBut s
  exact hsame r (by simpa using ne_pointer_of_isGeneral r h)

end Sys2Proof.Machine

namespace Sys2Proof

open Sys2Proof.Machine

/-- Settles O54: each of the four is the common template of R140 with its own bit of FLAGS as the condition. -/
theorem jumpResults : Obligations.JumpResults := by
  unfold Obligations.JumpResults
  intro s a
  refine ⟨rfl, rfl, rfl, rfl, ?jump, ?jumpEq, ?jumpGt, ?jumpLt⟩
  case jump =>
    rw [exec_jump_eq]
    exact jumpIf_jumped true a s
  case jumpEq =>
    rw [exec_jumpEq_eq]
    exact jumpIf_jumped ((s.reg .flags).getLsbD 0) a s
  case jumpGt =>
    rw [exec_jumpGt_eq]
    exact jumpIf_jumped ((s.reg .flags).getLsbD 2) a s
  case jumpLt =>
    rw [exec_jumpLt_eq]
    exact jumpIf_jumped ((s.reg .flags).getLsbD 1) a s

/-- Settles O57: the link registers are general, so none of the three registers RET writes. -/
theorem retRestores : Obligations.RetRestores := by
  unfold Obligations.RetRestores
  refine ⟨rfl, fun s hlinks => ?_⟩
  obtain ⟨hsp, hbp, hra⟩ := linksOk_isGeneral s.cfg hlinks
  exact ⟨retState s, exec_ret_eq s, retState_reg_bp s, retState_reg_sp s, retState_reg_pc s, retState_sameRegsBut s,
    retState_reg_of_isGeneral s _ hbp, retState_reg_of_isGeneral s _ hsp, retState_reg_of_isGeneral s _ hra,
    fun _ => rfl, rfl, rfl⟩

/-- Settles O60: NOOP is nothing but the advance by one byte and the count. -/
theorem noopResult : Obligations.NoopResult := by
  unfold Obligations.NoopResult
  exact ⟨rfl, fun s => ⟨_, exec_noop_eq s, jumped_retire .none s⟩⟩

end Sys2Proof
end

section
/-! O1, O2, O3, O5: the decoder and the encoder are inverse to one another (30_encoding.md R50 to R59, R67). -/

namespace Sys2Proof

/-! ### The operand bytes of a form -/

/-- `f.Fields i fs`: the form `f` makes `i` of the operand bytes `fs`, which follow the opcode byte (R54). -/
inductive Form.Fields : Form → Instr → List Byte → Prop
  | none (i : Instr) : Form.Fields (.none i) i []
  | imm (f : Word → Instr) (w : Word) : Form.Fields (.imm f) (f w) [loByte w, hiByte w]
  | reg (f : Reg → Instr) (r : Reg) : Form.Fields (.reg f) (f r) [r.id]
  | regImm (f : Reg → Word → Instr) (r : Reg) (w : Word) :
    Form.Fields (.regImm f) (f r w) [r.id, loByte w, hiByte w]
  | regReg (f : Reg → Reg → Instr) (rd rs : Reg) : Form.Fields (.regReg f) (f rd rs) [rd.id, rs.id]
  | regMem (f : Reg → Word → Instr) (r : Reg) (a : Word) :
    Form.Fields (.regMem f) (f r a) [r.id, loByte a, hiByte a]
  | memReg (f : Word → Reg → Instr) (a : Word) (r : Reg) :
    Form.Fields (.memReg f) (f a r) [loByte a, hiByte a, r.id]

/-- A form decodes its operand bytes, whatever follows them. -/
theorem Form.Fields.decode_append {f : Form} {i : Instr} {fs : List Byte} (h : f.Fields i fs) (rest : List Byte) :
    f.decode (fs ++ rest) = .ok i := by
  cases h <;> simp [Form.decode]

/-- A form decodes only byte strings that start with the operand bytes of the instruction it answers. -/
theorem Form.fields_of_decode_ok (f : Form) (bs : List Byte) (i : Instr) (h : f.decode bs = .ok i) :
    ∃ fs rest, bs = fs ++ rest ∧ f.Fields i fs := by
  unfold Form.decode at h
  split at h
  case h_1 => cases h; exact ⟨[], bs, rfl, .none _⟩
  case h_2 f lo hi rest =>
    cases h
    exact ⟨[lo, hi], rest, rfl, by simpa using Form.Fields.imm f (leWord lo hi)⟩
  case h_3 f b rest =>
    split at h
    next r hr => cases h; exact ⟨[b], rest, rfl, (decodeReg_ok b r).1 hr ▸ .reg f r⟩
    next => cases h
  case h_4 f b lo hi rest =>
    split at h
    next r hr =>
      cases h
      exact ⟨[b, lo, hi], rest, rfl,
        by simpa [(decodeReg_ok b r).1 hr] using Form.Fields.regImm f r (leWord lo hi)⟩
    next => cases h
  case h_5 f d b rest =>
    split at h
    next => cases h
    next rd hd =>
      split at h
      next rs hs =>
        cases h
        exact ⟨[d, b], rest, rfl, (decodeReg_ok d rd).1 hd ▸ (decodeReg_ok b rs).1 hs ▸ .regReg f rd rs⟩
      next => cases h
  case h_6 f b lo hi rest =>
    split at h
    next r hr =>
      cases h
      exact ⟨[b, lo, hi], rest, rfl,
        by simpa [(decodeReg_ok b r).1 hr] using Form.Fields.regMem f r (leWord lo hi)⟩
    next => cases h
  case h_7 f lo hi b rest =>
    split at h
    next r hr =>
      cases h
      exact ⟨[lo, hi, b], rest, rfl,
        by simpa [(decodeReg_ok b r).1 hr] using Form.Fields.memReg f (leWord lo hi) r⟩
    next => cases h
  case h_8 => cases h

/-- An instruction that a row of the opcode map makes of some operand bytes is encoded by that row's opcode byte and those
bytes (R54, R57). -/
theorem Form.Fields.encode_eq {op : Byte} {f : Form} {i : Instr} {fs : List Byte} (hrow : (op, f) ∈ opcodeTable)
    (h : f.Fields i fs) : encode i = op :: fs := by
  simp only [opcodeTable, List.cons_append, List.nil_append, List.mem_cons, List.not_mem_nil,
    Prod.mk.injEq] at hrow
  repeat' rcases hrow with ⟨rfl, rfl⟩ | hrow
  all_goals
    cases h
    rfl

/-- Every instruction is encoded by a row of the opcode map. -/
theorem exists_form_of_instr (i : Instr) : ∃ op f fs, encode i = op :: fs ∧ opcodeForm op = some f ∧ f.Fields i fs := by
  cases i <;> exact ⟨_, _, _, rfl, rfl, by constructor⟩

/-! ### The two round trips -/

/-- Settles O2: the row that encodes an instruction decodes its own operand bytes, whatever follows them. -/
theorem decodeInvertsEncode : Obligations.DecodeInvertsEncode := by
  unfold Obligations.DecodeInvertsEncode
  intro i rest
  obtain ⟨op, f, fs, henc, hform, hfields⟩ := exists_form_of_instr i
  rw [henc, List.cons_append, decode, hform]
  exact hfields.decode_append rest

/-- Settles O3: the accepted string starts with the opcode byte of a row of the map and the operand bytes of that row's
form, and these are the encoding. -/
theorem encodeInvertsDecode : Obligations.EncodeInvertsDecode := by
  unfold Obligations.EncodeInvertsDecode
  intro bs i h
  cases bs with
  | nil => cases h
  | cons op bs =>
    obtain ⟨f, hrow, hdec⟩ := decode_cons_ok op bs i h
    obtain ⟨fs, rest, rfl, hfields⟩ := f.fields_of_decode_ok bs i hdec
    have henc := hfields.encode_eq hrow
    obtain ⟨hlen, -⟩ := encodeShape i
    rw [← hlen, henc]
    simp

/-! ### Single opcode bytes -/

/-- Settles O1: each string is the encoding of its instruction, so this is the round trip on seven instructions. -/
theorem referenceWordsDecode : Obligations.ReferenceWordsDecode := by
  unfold Obligations.ReferenceWordsDecode
  exact ⟨decodeInvertsEncode .halt [], decodeInvertsEncode (.jump 0x1234) [], decodeInvertsEncode (.push .x3) [],
    decodeInvertsEncode (.movRegImm .x1 0x00FF) [], decodeInvertsEncode (.add .x2 .x1) [],
    decodeInvertsEncode (.movRegMem .x0 0x0100) [], decodeInvertsEncode (.movMemReg 0x0100 .x0) []⟩

/-- A form never refuses the opcode byte: it is chosen by a legal one. -/
theorem Form.decode_ne_illegalOpcode (f : Form) (bs : List Byte) (op : Byte) :
    f.decode bs ≠ .error (.illegalOpcode op) := by
  intro h
  unfold Form.decode at h
  repeat' split at h
  all_goals
    cases h
  all_goals
    next hr => simp [decodeReg_error] at hr

/-- A byte string is refused for its first byte exactly where the opcode map has no row for that byte (R59). -/
theorem decode_cons_illegalOpcode_iff (op : Byte) (rest : List Byte) :
    decode (op :: rest) = .error (.illegalOpcode op) ↔ opcodeForm op = none := by
  constructor
  · intro h
    cases hf : opcodeForm op with
    | none => rfl
    | some f =>
      simp only [decode, hf] at h
      exact absurd h (f.decode_ne_illegalOpcode rest op)
  · exact decode_cons_of_opcodeForm_none op rest

/-- The rows of the opcode map leave out exactly the ranges of R59. -/
theorem opcodeForm_eq_none_iff (op : Byte) :
    opcodeForm op = none ↔
      (0x05 ≤ op.toNat ∧ op.toNat ≤ 0x1F) ∨ (0x29 ≤ op.toNat ∧ op.toNat ≤ 0x3F) ∨ (0x43 ≤ op.toNat ∧ op.toNat ≤ 0x5F) ∨
      (0x61 ≤ op.toNat ∧ op.toNat ≤ 0x7F) ∨ (0x91 ≤ op.toNat ∧ op.toNat ≤ 0x9F) ∨ (0xA2 ≤ op.toNat ∧ op.toNat ≤ 0xBF) ∨
      (0xC2 ≤ op.toNat ∧ op.toNat ≤ 0xDF) ∨ 0xE0 ≤ op.toNat := by
  rw [← Option.isNone_iff_eq_none]
  revert op
  decide

/-- Settles O5: the refusal for the first byte is a missing row of the opcode map. -/
theorem illegalOpcodesAreTheListedBytes : Obligations.IllegalOpcodesAreTheListedBytes := by
  unfold Obligations.IllegalOpcodesAreTheListedBytes
  intro op rest
  rw [decode_cons_illegalOpcode_iff, opcodeForm_eq_none_iff]

end Sys2Proof
end

section
/-! What executing an instruction and what a step can do, said once, with O12 to O17 and O19 to O23 (10_state.md R22 to R24, 20_memory.md
R42, R43, 40_execution_cycle.md R70 to R78, 60_exceptions.md R160 to R166). -/

namespace Sys2Proof.Machine

/-! ### What an instruction may do -/

/-- A register an instruction may write: PC, the destination it names, or one it writes implicitly (R12). -/
def MayWrite (c : Config) (i : Instr) (r : Reg) : Prop :=
  r = .pc ∨ destOf i = some r ∨ r ∈ implicitWritesOf c i

/-- An address at which an instruction reads or writes a word of memory (R42, R43). -/
def Accesses (s : State) (i : Instr) (a : Word) : Prop :=
  (storeAddressOf s i = some a) ∨ (∃ r, i = .movRegMem r a) ∨ (∃ r, i = .cmpRegMem r a) ∨
    (∃ r, i = .cmpMemReg a r) ∨ (a = s.reg .sp - 2 ∧ ((∃ r, i = .pop r) ∨ i = .dup ∨ i = .cmp)) ∨
    (a = s.reg .sp - 4 ∧ i = .cmp)

/-- A fatal error an instruction can raise: a zero divisor, or an access that reaches beyond the buffer (R164, R165). -/
def Raises (s : State) (i : Instr) (c : Cause) : Prop :=
  (c = .divideByZero (s.reg .pc) ∧ ∃ rd rs, (i = .div rd rs ∨ i = .divs rd rs) ∧ s.reg rs = 0) ∨
    (∃ a, c = .outOfBoundsAccess a ∧ ¬WordFits s a ∧ Accesses s i a)

/-- What an instruction does to the memory and the engine state of `s`, where it raises no fatal error: nothing, the halt
of HALT, the soft halt of a blocked store, or a store (R43, R151, R166). -/
inductive StoreEffect (s : State) (i : Instr) (t : State) : Prop
  | none (hmem : t.mem = s.mem) (hengine : t.engine = s.engine)
  | halt (hi : i = .halt) (hmem : t.mem = s.mem) (hengine : t.engine = .halted)
  | blocked (a : Word) (haddr : storeAddressOf s i = some a) (hblocked : WriteBlocked s a) (hmem : t.mem = s.mem)
    (hengine : t.engine = .halted)
  | stored (a v : Word) (haddr : storeAddressOf s i = some a) (hfits : WordFits s a) (hopen : ¬WriteBlocked s a)
    (hmem : t.mem = s.mem.writeWord a.toNat v) (hengine : t.engine = s.engine)

/-- `t` differs from `s` only by what the instruction may write, with `n` more counted. -/
structure Permitted (s : State) (i : Instr) (n : Nat) (t : State) : Prop where
  cfg : t.cfg = s.cfg
  icount : t.icount = s.icount + n
  reg : ∀ r, ¬MayWrite s.cfg i r → t.reg r = s.reg r
  store : StoreEffect s i t

/-- What the semantics of an instruction, before the advance and the count, can answer. -/
inductive Semantics (s : State) (i : Instr) : Except Cause State → Prop
  | error {c : Cause} (h : Raises s i c) : Semantics s i (.error c)
  | ok {u : State} (h : Permitted s i 0 u) : Semantics s i (.ok u)

/-- What executing an instruction answers: a fatal error it can raise with nothing else changed, or a counted state in
which only what it may write has changed. -/
inductive Outcome (s : State) (i : Instr) : State → Prop
  | faulted (c : Cause) (h : Raises s i c) : Outcome s i (s.setEngine (.faulted c))
  | completed {t : State} (h : Permitted s i 1 t) : Outcome s i t

/-! ### Permitted changes, one operation at a time -/

section
variable {s u : State} {i : Instr} {n : Nat}

theorem mayWrite_pc (c : Config) (i : Instr) : MayWrite c i .pc := .inl rfl

theorem mayWrite_of_destOf {c : Config} {r : Reg} (h : destOf i = some r) : MayWrite c i r := .inr (.inl h)

theorem mayWrite_of_implicit {c : Config} {r : Reg} (h : r ∈ implicitWritesOf c i) : MayWrite c i r := .inr (.inr h)

theorem accesses_of_store {a : Word} (h : storeAddressOf s i = some a) : Accesses s i a := .inl h

theorem accesses_movRegMem (s : State) (r : Reg) (a : Word) : Accesses s (.movRegMem r a) a := .inr (.inl ⟨r, rfl⟩)

theorem accesses_cmpRegMem (s : State) (r : Reg) (a : Word) : Accesses s (.cmpRegMem r a) a :=
  .inr (.inr (.inl ⟨r, rfl⟩))

theorem accesses_cmpMemReg (s : State) (r : Reg) (a : Word) : Accesses s (.cmpMemReg a r) a :=
  .inr (.inr (.inr (.inl ⟨r, rfl⟩)))

/-- POP, DUP and CMP read the top word of the stack. -/
theorem accesses_top (s : State) (h : (∃ r, i = .pop r) ∨ i = .dup ∨ i = .cmp) : Accesses s i (belowSp s 2) :=
  .inr (.inr (.inr (.inr (.inl ⟨rfl, h⟩))))

/-- CMP reads the word below the top one as well. -/
theorem accesses_deeper (s : State) : Accesses s .cmp (belowSp s 4) := .inr (.inr (.inr (.inr (.inr ⟨rfl, rfl⟩))))

theorem Permitted.refl (s : State) (i : Instr) : Permitted s i 0 s :=
  ⟨rfl, rfl, fun _ _ => rfl, .none rfl rfl⟩

/-- HALT changes the engine state alone. -/
theorem Permitted.halt (s : State) : Permitted s .halt 0 (s.setEngine .halted) :=
  ⟨rfl, rfl, fun _ _ => rfl, .halt rfl rfl rfl⟩

theorem StoreEffect.of_same {t : State} (h : StoreEffect s i u) (hmem : t.mem = u.mem) (hengine : t.engine = u.engine) :
    StoreEffect s i t := by
  cases h with
  | none h1 h2 => exact .none (hmem.trans h1) (hengine.trans h2)
  | halt hi h1 h2 => exact .halt hi (hmem.trans h1) (hengine.trans h2)
  | blocked a haddr hb h1 h2 => exact .blocked a haddr hb (hmem.trans h1) (hengine.trans h2)
  | stored a v haddr hf ho h1 h2 => exact .stored a v haddr hf ho (hmem.trans h1) (hengine.trans h2)

theorem Permitted.setReg {r : Reg} (h : Permitted s i n u) (hr : MayWrite s.cfg i r) (v : Word) :
    Permitted s i n (u.setReg r v) := by
  refine ⟨h.cfg, h.icount, fun q hq => ?_, h.store.of_same rfl rfl⟩
  have hne : q ≠ r := fun e => hq (e ▸ hr)
  simpa [hne] using h.reg q hq

theorem Permitted.count (h : Permitted s i n u) : Permitted s i (n + 1) u.count :=
  ⟨h.cfg, congrArg (· + 1) h.icount, h.reg, h.store.of_same rfl rfl⟩

/-- The advance writes PC, which every instruction may write. -/
theorem Permitted.retire (sh : Shape) (h : Permitted s i n u) : Permitted s i (n + 1) (retire sh u) :=
  (h.setReg (mayWrite_pc _ _) _).count

/-- A performed or blocked write at the address an instruction stores to. -/
theorem Permitted.memWrite {a v : Word} (haddr : storeAddressOf s i = some a) (h : memWrite s a v = .ok u) :
    Permitted s i 0 u := by
  obtain ⟨hfits, ⟨hblocked, rfl⟩ | ⟨hopen, rfl⟩⟩ := (memWrite_ok s u a v).1 h
  · exact ⟨rfl, rfl, fun _ _ => rfl, .blocked a haddr hblocked rfl rfl⟩
  · exact ⟨rfl, rfl, fun _ _ => rfl, .stored a v haddr hfits hopen rfl rfl⟩

/-! ### The templates the instructions share -/

theorem Raises.outOfBounds {a : Word} (hfits : s.cfg.memSize < a.toNat + 2) (ha : Accesses s i a) :
    Raises s i (.outOfBoundsAccess a) :=
  .inr ⟨a, rfl, Nat.not_le.2 hfits, ha⟩

/-- The semantics writes one register. -/
theorem Semantics.setReg (r : Reg) (v : Word) (hr : MayWrite s.cfg i r) : Semantics s i (.ok (s.setReg r v)) :=
  .ok ((Permitted.refl s i).setReg hr v)

/-- The semantics reads a word of memory and goes on with it. -/
theorem Semantics.memRead {a : Word} {k : Word → Except Cause State} (ha : Accesses s i a)
    (hk : ∀ v, Semantics s i (k v)) :
    Semantics s i (match memRead s a with | .error c => .error c | .ok v => k v) := by
  cases h : Machine.memRead s a with
  | error c =>
    obtain ⟨hfits, rfl⟩ := (memRead_error s a c).1 h
    exact .error (.outOfBounds hfits ha)
  | ok v => exact hk v

theorem Semantics.memWrite {a : Word} (v : Word) (haddr : storeAddressOf s i = some a) :
    Semantics s i (memWrite s a v) := by
  cases h : Machine.memWrite s a v with
  | error c =>
    obtain ⟨hfits, rfl⟩ := (memWrite_error s a v c).1 h
    exact .error (.outOfBounds hfits (accesses_of_store haddr))
  | ok u => exact .ok (.memWrite haddr h)

theorem Semantics.push (v : Word) (haddr : storeAddressOf s i = some (s.reg .sp)) (hsp : MayWrite s.cfg i .sp) :
    Semantics s i (push s v) := by
  cases h : Machine.push s v with
  | error c =>
    obtain ⟨hfits, rfl⟩ := (push_error s v c).1 h
    exact .error (.outOfBounds hfits (accesses_of_store haddr))
  | ok u =>
    obtain ⟨w, hw, rfl⟩ := (push_ok s u v).1 h
    exact .ok ((Permitted.memWrite haddr hw).setReg hsp _)

theorem Semantics.compareSided (left : CmpSide) (a b : Word) (hflags : MayWrite s.cfg i .flags) :
    Semantics s i (.ok (compareSided left a b s)) := by
  cases left
  · exact .setReg .flags _ hflags
  · exact .setReg .flags _ hflags

theorem aluDiv_eq_none_iff (a b : Word) : aluDiv a b = none ↔ b = 0 := by
  simp [aluDiv, BitVec.toNat_eq]

theorem aluDivs_eq_none_iff (a b : Word) : aluDivs a b = none ↔ b = 0 := by
  simp [aluDivs, ← BitVec.toInt_inj]

/-- The division template: the named register, or a zero divisor. -/
theorem Semantics.aluDivide {f : Word → Word → Option Word} {rd rs : Reg} (hf : ∀ a b, f a b = none ↔ b = 0)
    (hi : i = .div rd rs ∨ i = .divs rd rs) : Semantics s i (aluDivide f rd rs s) := by
  cases h : Machine.aluDivide f rd rs s with
  | error c =>
    obtain ⟨hnone, rfl⟩ := (aluDivide_error f rd rs s c).1 h
    exact .error (.inl ⟨rfl, rd, rs, hi, (hf _ _).1 hnone⟩)
  | ok u =>
    obtain ⟨v, -, rfl⟩ := (aluDivide_ok f rd rs s u).1 h
    exact .setReg rd v (by obtain rfl | rfl := hi <;> exact mayWrite_of_destOf rfl)

/-! ### The end of an instruction -/

theorem outcome_finish (sh : Shape) {x : Except Cause State} (h : Semantics s i x) :
    ∃ t, finish sh s x = .next t ∧ Outcome s i t := by
  cases h with
  | error h => exact ⟨_, rfl, .faulted _ h⟩
  | ok h => exact ⟨_, rfl, .completed (h.retire sh)⟩

theorem outcome_finishControl (h : Permitted s i 0 u) : ∃ t, finishControl u = .next t ∧ Outcome s i t :=
  ⟨_, rfl, .completed h.count⟩

theorem outcome_jumpIf (taken : Bool) (a : Word) (s : State) (i : Instr) :
    ∃ t, jumpIf taken a s = .next t ∧ Outcome s i t :=
  outcome_finishControl ((Permitted.refl s i).setReg (mayWrite_pc _ _) _)

end

/-! ### All instructions -/

/-- The two-operand template of R80 on an instruction whose destination is its first register. -/
theorem outcome_aluTwo (f : Word → Word → Word) (rd rs : Reg) (s : State) (i : Instr) (hi : destOf i = some rd) :
    ∃ t, finish .regReg s (aluTwo f rd rs s) = .next t ∧ Outcome s i t :=
  outcome_finish _ (.setReg rd _ (mayWrite_of_destOf hi))

theorem outcome_call (a : Word) (s : State) : ∃ t, exec (.call a) s = .next t ∧ Outcome s (.call a) t := by
  have hlink (r : Reg) (hr : r ∈ [s.cfg.linkSp, s.cfg.linkBp, s.cfg.linkRa, .bp]) : MayWrite s.cfg (.call a) r :=
    mayWrite_of_implicit hr
  exact outcome_finishControl
    ((((((Permitted.refl s _).setReg (hlink _ (by simp)) _).setReg (hlink _ (by simp)) _).setReg
      (hlink _ (by simp)) _).setReg (hlink _ (by simp)) _).setReg (mayWrite_pc _ _) _)

theorem outcome_ret (s : State) : ∃ t, exec .ret s = .next t ∧ Outcome s .ret t := by
  have hptr (r : Reg) (hr : r ∈ ([.sp, .bp] : List Reg)) : MayWrite s.cfg .ret r :=
    mayWrite_of_implicit hr
  exact outcome_finishControl
    ((((Permitted.refl s _).setReg (hptr _ (by simp)) _).setReg (hptr _ (by simp)) _).setReg (mayWrite_pc _ _) _)

theorem outcome_pop (r : Reg) (s : State) : ∃ t, exec (.pop r) s = .next t ∧ Outcome s (.pop r) t := by
  refine outcome_finish .reg ?_
  cases h : pop s with
  | error c =>
    obtain ⟨hfits, rfl⟩ := (pop_error s c).1 h
    exact .error (.outOfBounds hfits (accesses_top s (.inl ⟨r, rfl⟩)))
  | ok p =>
    obtain ⟨v, u⟩ := p
    obtain ⟨-, -, rfl⟩ := (pop_ok s u v).1 h
    have hsp : MayWrite s.cfg (.pop r) .sp := mayWrite_of_implicit (by simp [implicitWritesOf])
    exact .ok (((Permitted.refl s _).setReg hsp _).setReg (mayWrite_of_destOf rfl) v)

theorem outcome_cmp (s : State) : ∃ t, exec .cmp s = .next t ∧ Outcome s .cmp t :=
  outcome_finish .none
    (.memRead (accesses_deeper s)
      fun _ => .memRead (accesses_top s (.inr (.inr rfl)))
        fun _ => .setReg .flags _ (mayWrite_of_implicit (by simp [implicitWritesOf])))

/-- Every instruction in every state answers a next state, by a fatal error it can raise or with only what it may write
changed. -/
theorem exec_outcome (i : Instr) (s : State) : ∃ t, exec i s = .next t ∧ Outcome s i t := by
  have hsp (i : Instr) (h : implicitWritesOf s.cfg i = [.sp]) : MayWrite s.cfg i .sp :=
    mayWrite_of_implicit (by simp [h])
  have hflags (i : Instr) (h : implicitWritesOf s.cfg i = [.flags]) : MayWrite s.cfg i .flags :=
    mayWrite_of_implicit (by simp [h])
  cases i with
  | dup =>
    exact outcome_finish .none
      (.memRead (accesses_top s (.inr (.inl rfl))) fun v => .push v rfl (hsp _ rfl))
  | cmp => exact outcome_cmp s
  | ret => exact outcome_ret s
  | halt => exact outcome_finish .none (.ok (.halt s))
  | noop => exact outcome_finish .none (.ok (.refl s _))
  | pushImm w => exact outcome_finish .imm (.push w rfl (hsp _ rfl))
  | jump a => exact outcome_jumpIf _ a s _
  | jumpEq a => exact outcome_jumpIf _ a s _
  | jumpNeq a => exact outcome_jumpIf _ a s _
  | jumpGt a => exact outcome_jumpIf _ a s _
  | jumpLt a => exact outcome_jumpIf _ a s _
  | jumpGeq a => exact outcome_jumpIf _ a s _
  | jumpLeq a => exact outcome_jumpIf _ a s _
  | call a => exact outcome_call a s
  | not r => exact outcome_finish .reg (.setReg r _ (mayWrite_of_destOf rfl))
  | push r => exact outcome_finish .reg (.push _ rfl (hsp _ rfl))
  | pop r => exact outcome_pop r s
  | movRegImm r w => exact outcome_finish .regImm (.setReg r w (mayWrite_of_destOf rfl))
  | add rd rs => exact outcome_aluTwo aluAdd rd rs s _ rfl
  | sub rd rs => exact outcome_aluTwo aluSub rd rs s _ rfl
  | mul rd rs => exact outcome_aluTwo aluMul rd rs s _ rfl
  | div rd rs => exact outcome_finish .regReg (.aluDivide aluDiv_eq_none_iff (.inl rfl))
  | adds rd rs => exact outcome_aluTwo aluAdds rd rs s _ rfl
  | subs rd rs => exact outcome_aluTwo aluSubs rd rs s _ rfl
  | muls rd rs => exact outcome_aluTwo aluMuls rd rs s _ rfl
  | divs rd rs => exact outcome_finish .regReg (.aluDivide aluDivs_eq_none_iff (.inr rfl))
  | addf rd rs => exact outcome_aluTwo aluAddf rd rs s _ rfl
  | subf rd rs => exact outcome_aluTwo aluSubf rd rs s _ rfl
  | mulf rd rs => exact outcome_aluTwo aluMulf rd rs s _ rfl
  | divf rd rs => exact outcome_aluTwo aluDivf rd rs s _ rfl
  | or rd rs => exact outcome_aluTwo aluOr rd rs s _ rfl
  | xor rd rs => exact outcome_aluTwo aluXor rd rs s _ rfl
  | and rd rs => exact outcome_aluTwo aluAnd rd rs s _ rfl
  | movRegReg rd rs => exact outcome_finish .regReg (.setReg rd _ (mayWrite_of_destOf rfl))
  | cmpRegReg rd rs => exact outcome_finish .regReg (.setReg .flags _ (hflags _ rfl))
  | movRegMem r a =>
    exact outcome_finish .regMem (.memRead (accesses_movRegMem s r a) fun v => .setReg r v (mayWrite_of_destOf rfl))
  | cmpRegMem r a =>
    exact outcome_finish .regMem
      (.memRead (accesses_cmpRegMem s r a) fun m => .compareSided _ _ m (hflags _ rfl))
  | movMemReg a r => exact outcome_finish .memReg (.memWrite _ rfl)
  | cmpMemReg a r =>
    exact outcome_finish .memReg
      (.memRead (accesses_cmpMemReg s r a) fun m => .compareSided _ _ m (hflags _ rfl))

theorem outcome_of_exec {i : Instr} {s t : State} (h : exec i s = .next t) : Outcome s i t := by
  obtain ⟨u, hu, hout⟩ := exec_outcome i s
  cases hu.symm.trans h
  exact hout

/-! ### One step -/

/-- Everything a step can do: nothing when not running, a fatal error with nothing else changed, or the counted effect of
the instruction at PC. -/
inductive StepOutcome (s : State) : State → Prop
  | stopped (h : s.engine ≠ .running) : StepOutcome s s
  | faulted (h : s.engine = .running) (c : Cause) : StepOutcome s (s.setEngine (.faulted c))
  | completed {t : State} (h : s.engine = .running) (i : Instr) (hdec : decode (fetchBytes s) = .ok i)
    (heff : Permitted s i 1 t) : StepOutcome s t

theorem step_outcome (s : State) : ∃ t, step s = .next t ∧ StepOutcome s t := by
  obtain ⟨hstop, hstep⟩ | ⟨hrun, c, -, hstep⟩ | ⟨hrun, i, hfetch, hstep⟩ := step_cases s
  · exact ⟨s, hstep, .stopped hstop⟩
  · exact ⟨_, hstep, .faulted hrun c⟩
  · obtain ⟨t, ht, hout⟩ := exec_outcome i s
    refine ⟨t, hstep.trans ht, ?_⟩
    obtain ⟨-, hdec⟩ := (fetch_ok s i).1 hfetch
    cases hout with
    | faulted c _ => exact .faulted hrun c
    | completed heff => exact .completed hrun i hdec heff

theorem outcome_of_step {s t : State} (h : step s = .next t) : StepOutcome s t := by
  obtain ⟨u, hu, hout⟩ := step_outcome s
  cases hu.symm.trans h
  exact hout

/-- The whole effect of a fatal error (R160). -/
theorem tookFault_setEngine (s : State) (c : Cause) : TookFault s (s.setEngine (.faulted c)) c :=
  ⟨rfl, rfl, ⟨rfl, fun _ _ => rfl⟩, fun _ => rfl⟩

/-- An instruction that raises no fatal error leaves a running machine running or halted. -/
theorem Permitted.not_badEnd {s t : State} {i : Instr} {n : Nat} (h : Permitted s i n t) (hrun : s.engine = .running) :
    ¬t.BadEnd := by
  rintro ⟨c, hc⟩
  cases h.store with
  | none _ he => simp [he, hrun] at hc
  | halt _ _ he => simp [he] at hc
  | blocked _ _ _ _ he => simp [he] at hc
  | stored _ _ _ _ _ _ he => simp [he, hrun] at hc

theorem sameBytes_of_mem_eq {s t : State} (h : t.mem = s.mem) : SameBytes s t := fun a => congrArg (·.read a) h

/-! ### Runs -/

theorem run_succ_of_step {s u : State} (h : step s = .next u) (n : Nat) :
    Host.Core.run Sys2Proof.core (n + 1) s = Host.Core.run Sys2Proof.core n u := by
  have hcore : Sys2Proof.core.step s = .next u := h
  simp only [Host.Core.run]
  rw [hcore]

/-- What every step keeps, every run keeps. -/
theorem reaches_keeps {P : State → Prop} (hstep : ∀ s t, P s → step s = .next t → P t) {s t : State} (hs : P s)
    (h : Reaches s t) : P t := by
  obtain ⟨n, h⟩ := h
  induction n generalizing s with
  | zero => cases h; exact hs
  | succ n ih =>
    obtain ⟨u, hu, -⟩ := step_outcome s
    rw [run_succ_of_step hu] at h
    exact ih (hstep s u hs hu) h

end Sys2Proof.Machine

namespace Sys2Proof

open Sys2Proof.Machine

/-! ### The obligations about one step -/

/-- Settles O12: such a state is its own next state, by induction on the number of steps. -/
theorem haltedAndFaultedAreTerminal : Obligations.HaltedAndFaultedAreTerminal := by
  unfold Obligations.HaltedAndFaultedAreTerminal
  intro s n hstop
  induction n with
  | zero => rfl
  | succ n ih =>
    obtain ⟨-, hstep⟩ | ⟨hrun, -⟩ | ⟨hrun, -⟩ := step_cases s
    · rw [run_succ_of_step hstep, ih]
    · exact absurd hrun hstop
    · exact absurd hrun hstop

/-- Settles O13: no branch of the step and no instruction faults or refuses. -/
theorem everyStepAnswersNextState : Obligations.EveryStepAnswersNextState := by
  unfold Obligations.EveryStepAnswersNextState
  intro s
  obtain ⟨t, ht, -⟩ := step_outcome s
  exact ⟨t, ht⟩

/-- Settles O14: a completed instruction does not end in `Faulted`, and every fatal error changes the engine alone. -/
theorem fatalErrorsArePrecise : Obligations.FatalErrorsArePrecise := by
  unfold Obligations.FatalErrorsArePrecise
  intro s t c hrun hstep hfault
  cases outcome_of_step hstep with
  | stopped h => exact absurd hrun h
  | faulted _ c' =>
    cases hfault
    exact tookFault_setEngine s c
  | completed _ i _ heff => exact absurd ⟨c, hfault⟩ (heff.not_badEnd hrun)

/-- Settles O15: a fatal error keeps the count, a completed instruction adds one and is no bad end. -/
theorem stepCountsExecutedInstructions : Obligations.StepCountsExecutedInstructions := by
  unfold Obligations.StepCountsExecutedInstructions
  intro s t hrun hstep
  cases outcome_of_step hstep with
  | stopped h => exact absurd hrun h
  | faulted _ c => exact ⟨fun _ => rfl, fun h => absurd ⟨c, rfl⟩ h⟩
  | completed _ i _ heff => exact ⟨fun h => absurd h (heff.not_badEnd hrun), fun _ => heff.icount⟩

/-- Settles O16: a faulting instruction took one of the errors it can raise. -/
theorem fatalErrorsOfExecution : Obligations.FatalErrorsOfExecution := by
  unfold Obligations.FatalErrorsOfExecution
  intro i s t c hrun hexec hfault
  cases outcome_of_exec hexec with
  | faulted c' h =>
    cases hfault
    exact h
  | completed h => exact absurd ⟨c, hfault⟩ (h.not_badEnd hrun)

/-- Settles O17: no step changes the configuration, and the one operation that changes memory writes a word that fits. -/
theorem stepKeepsInvariant : Obligations.StepKeepsInvariant := by
  unfold Obligations.StepKeepsInvariant
  intro s t hinv hstep
  cases outcome_of_step hstep with
  | stopped _ => exact hinv
  | faulted _ c => exact hinv
  | completed _ i _ heff =>
    obtain ⟨hcfg, hwf, hbelow⟩ := hinv
    unfold State.Inv
    rw [heff.cfg]
    cases heff.store with
    | none hmem _ => exact hmem ▸ ⟨hcfg, hwf, hbelow⟩
    | halt _ hmem _ => exact hmem ▸ ⟨hcfg, hwf, hbelow⟩
    | blocked _ _ _ hmem _ => exact hmem ▸ ⟨hcfg, hwf, hbelow⟩
    | stored a v _ hfits _ hmem _ =>
      rw [hmem]
      exact ⟨hcfg, Memory.writeWord_wf _ _ _ hwf, Memory.writeWord_below _ _ _ _ hfits hbelow⟩

/-- No step changes the configuration (R180). -/
theorem step_keeps_cfg (s t : State) (h : step s = .next t) : t.cfg = s.cfg := by
  cases outcome_of_step h with
  | stopped _ => rfl
  | faulted _ _ => rfl
  | completed _ _ _ heff => exact heff.cfg

/-- Settles O19: every step keeps the configuration, so every run does. -/
theorem configurationIsFixed : Obligations.ConfigurationIsFixed := by
  unfold Obligations.ConfigurationIsFixed
  intro s t h
  exact reaches_keeps (P := fun u => u.cfg = s.cfg) (fun u v hu huv => (step_keeps_cfg u v huv).trans hu) rfl h

/-- What one step can do to memory: nothing, or the store of a word that is not blocked by the instruction at PC. -/
theorem step_mem (s t : State) (h : step s = .next t) :
    t.mem = s.mem ∨ ∃ i a v, decode (fetchBytes s) = .ok i ∧ storeAddressOf s i = some a ∧ ¬WriteBlocked s a ∧
      t.mem = s.mem.writeWord a.toNat v := by
  cases outcome_of_step h with
  | stopped _ => exact .inl rfl
  | faulted _ _ => exact .inl rfl
  | completed _ i hdec heff =>
    cases heff.store with
    | none hmem _ => exact .inl hmem
    | halt _ hmem _ => exact .inl hmem
    | blocked _ _ _ hmem _ => exact .inl hmem
    | stored a v haddr _ hopen hmem _ => exact .inr ⟨i, a, v, hdec, haddr, hopen, hmem⟩

/-- With a read-only program segment a performed store starts at or above its end, so one step keeps every byte below. -/
theorem step_keeps_readonly_program (s t : State) (hro : s.cfg.programReadonly = true) (h : step s = .next t) (a : Nat)
    (ha : a < s.cfg.programSize) : t.byteAt a = s.byteAt a := by
  unfold State.byteAt
  obtain hmem | ⟨i, b, v, -, -, hopen, hmem⟩ := step_mem s t h
  · rw [hmem]
  · have hb : s.cfg.programSize ≤ b.toNat := Nat.not_lt.1 fun hlt => hopen ⟨hro, hlt⟩
    rw [hmem, Memory.read_writeWord_other _ _ _ _ (by omega) (by omega)]

/-- Settles O20: a run keeps both the configuration and, step by step, the bytes of the read-only segment. -/
theorem readOnlyProgramNeverChanges : Obligations.ReadOnlyProgramNeverChanges := by
  unfold Obligations.ReadOnlyProgramNeverChanges
  intro s t hro h
  have hkeeps : t.cfg = s.cfg ∧ ∀ a, a < s.cfg.programSize → t.byteAt a = s.byteAt a := by
    refine reaches_keeps (P := fun u => u.cfg = s.cfg ∧ ∀ a, a < s.cfg.programSize → u.byteAt a = s.byteAt a)
      ?_ ⟨rfl, fun _ _ => rfl⟩ h
    rintro u v ⟨hcfg, hbytes⟩ huv
    refine ⟨(step_keeps_cfg u v huv).trans hcfg, fun a ha => ?_⟩
    rw [step_keeps_readonly_program u v (hcfg ▸ hro) huv a (hcfg ▸ ha), hbytes a ha]
  exact hkeeps.2

/-- Settles O21: a completed instruction writes only what it may write. -/
theorem onlyListedInstructionsWriteRegister : Obligations.OnlyListedInstructionsWriteRegister := by
  unfold Obligations.OnlyListedInstructionsWriteRegister
  intro s t r hrun hstep hpc hne
  cases outcome_of_step hstep with
  | stopped h => exact absurd hrun h
  | faulted _ _ => exact absurd rfl hne
  | completed _ i hdec heff =>
    obtain hr | hlisted : MayWrite s.cfg i r := by
      by_contra hnot
      exact hne (heff.reg r hnot)
    · exact absurd hr hpc
    · exact ⟨i, hdec, hlisted⟩

/-- Settles O22: a word write leaves every byte but its own two. -/
theorem onlyStoresChangeMemory : Obligations.OnlyStoresChangeMemory := by
  unfold Obligations.OnlyStoresChangeMemory
  intro s t x hstep hne
  unfold State.byteAt at hne
  obtain hmem | ⟨i, a, v, hdec, haddr, -, hmem⟩ := step_mem s t hstep
  · exact absurd (by rw [hmem]) hne
  · refine ⟨i, a, hdec, haddr, ?_⟩
    by_contra hx
    rw [not_or] at hx
    obtain ⟨hlow, hhigh⟩ := hx
    exact hne (by rw [hmem, Memory.read_writeWord_other _ _ _ _ hlow hhigh])

/-- Settles O23: of the effects of a running machine's step only HALT and a blocked store leave it halted, and both leave
memory alone. -/
theorem haltedOnlyByHaltOrIllegalWrite : Obligations.HaltedOnlyByHaltOrIllegalWrite := by
  unfold Obligations.HaltedOnlyByHaltOrIllegalWrite
  intro s t hrun hstep hhalt
  cases outcome_of_step hstep with
  | stopped h => exact absurd hrun h
  | faulted _ _ => simp at hhalt
  | completed _ i hdec heff =>
    cases heff.store with
    | none _ he => simp [he, hrun] at hhalt
    | halt hi hmem _ => exact ⟨i, hdec, sameBytes_of_mem_eq hmem, .inl hi⟩
    | blocked a haddr hblocked hmem _ => exact ⟨i, hdec, sameBytes_of_mem_eq hmem, .inr ⟨a, haddr, hblocked⟩⟩
    | stored _ _ _ _ _ _ he => simp [he, hrun] at hhalt

end Sys2Proof
end

section
/-! O6 to O11: what the step of a running machine does with the bytes at PC (40_execution_cycle.md R70 to R75, 60_exceptions.md
R161 to R163, R165, R168). -/

namespace Sys2Proof

open Sys2Proof.Machine

/-! ### Forms and the first byte of an encoding -/

theorem Shape.size_le_maxInstrBytes (sh : Shape) : sh.size ≤ maxInstrBytes := by cases sh <;> decide

/-- Every form makes some instruction. -/
theorem Form.exists_fields (f : Form) : ∃ i fs, f.Fields i fs := by
  cases f with
  | none i => exact ⟨_, _, .none i⟩
  | imm f => exact ⟨_, _, .imm f 0⟩
  | reg f => exact ⟨_, _, .reg f .x0⟩
  | regImm f => exact ⟨_, _, .regImm f .x0 0⟩
  | regReg f => exact ⟨_, _, .regReg f .x0 .x0⟩
  | regMem f => exact ⟨_, _, .regMem f .x0 0⟩
  | memReg f => exact ⟨_, _, .memReg f 0 .x0⟩

/-- A byte that starts no encoding has no row in the opcode map (R59). -/
theorem opcodeForm_eq_none_of_no_encoding (op : Byte) (h : ∀ i : Instr, (encode i).head? ≠ some op) :
    opcodeForm op = none := by
  cases hf : opcodeForm op with
  | none => rfl
  | some f =>
    obtain ⟨i, fs, hfields⟩ := f.exists_fields
    exact absurd (by rw [hfields.encode_eq (opcodeForm_mem op f hf), List.head?_cons]) (h i)

/-- The byte an encoding starts with has a row in the opcode map, of the instruction's shape class (R57). -/
theorem exists_form_of_encode_head (op : Byte) (i : Instr) (h : (encode i).head? = some op) :
    ∃ f, opcodeForm op = some f ∧ f.shape = i.shape := by
  obtain ⟨op', f, fs, henc, hform, -⟩ := exists_form_of_instr i
  obtain ⟨-, op'', rest, henc', -, hclass⟩ := encodeShape i
  obtain rfl : op' = op := by simpa [henc] using h
  obtain rfl : op' = op'' := by simp_all
  refine ⟨f, hform, ?_⟩
  have hshape := opcodeForm_shape (op', f) (opcodeForm_mem op' f hform)
  simpa [hclass, eq_comm] using hshape

/-- A form refuses a byte string that is shorter than its operand fields (R74). -/
theorem Form.decode_of_short (f : Form) (bs : List Byte) (h : bs.length + 1 < f.shape.size) :
    f.decode bs = .error .missingBytes := by
  unfold Form.decode
  split
  case h_8 => rfl
  all_goals
    simp only [Form.shape, Shape.size, List.length_cons] at h
    omega

/-- An instruction of class `REG_MEM` is refused at decode when its register id is above 11 (R54, R55). -/
theorem decode_regMem_of_gt (op b lo hi : Byte) (f : Reg → Word → Instr) (rest : List Byte)
    (hform : opcodeForm op = some (.regMem f)) (hb : 11 < b.toNat) :
    decode (op :: b :: lo :: hi :: rest) = .error (.illegalRegister b) := by
  simp [decode, hform, Form.decode, decodeReg_of_gt b hb]

/-- An instruction of class `MEM_REG` is refused at decode when its register id is above 11 (R54, R55). -/
theorem decode_memReg_of_gt (op b lo hi : Byte) (f : Word → Reg → Instr) (rest : List Byte)
    (hform : opcodeForm op = some (.memReg f)) (hb : 11 < b.toNat) :
    decode (op :: lo :: hi :: b :: rest) = .error (.illegalRegister b) := by
  simp [decode, hform, Form.decode, decodeReg_of_gt b hb]

/-- A register id of at most 11 is that of a register (R55). -/
theorem exists_reg_of_le (b : Byte) (h : b.toNat ≤ 11) : ∃ r : Reg, b = r.id := by
  have hok : regIdOk b = true := by simpa [regIdOk] using h
  cases hr : decodeReg b with
  | error e => simp [decodeReg_error, hok] at hr
  | ok r => exact ⟨r, (decodeReg_ok b r).1 hr⟩

/-! ### The fetched bytes -/

theorem bytes_add (m : Memory) (a n k : Nat) : m.bytes a (n + k) = m.bytes a n ++ m.bytes (a + n) k := by
  induction n generalizing a with
  | zero => simp [Memory.bytes]
  | succ n ih => rw [Nat.succ_add, Memory.bytes, ih, Memory.bytes, List.cons_append, Nat.succ_add_eq_add_succ]

/-- The decoder sees every byte of an instruction that lies inside the buffer (R74). -/
theorem fetchBytes_eq_append (s : State) (n : Nat) (hn : n ≤ maxInstrBytes)
    (hfits : (s.reg .pc).toNat + n ≤ s.cfg.memSize) :
    ∃ rest, fetchBytes s = s.mem.bytes (s.reg .pc).toNat n ++ rest := by
  obtain ⟨k, hk⟩ := Nat.exists_eq_add_of_le (show n ≤ min maxInstrBytes (s.cfg.memSize - (s.reg .pc).toNat) by omega)
  exact ⟨_, by rw [fetchBytes, hk, bytes_add]⟩

/-- The decoder sees no byte beyond the buffer (R74). -/
theorem fetchBytes_length_le (s : State) : (fetchBytes s).length ≤ s.cfg.memSize - (s.reg .pc).toNat := by
  rw [fetchBytes, Memory.bytes_length]
  omega

/-- With PC inside the buffer the decoder sees at least the opcode byte (R73). -/
theorem fetchBytes_eq_cons (s : State) (h : (s.reg .pc).toNat < s.cfg.memSize) :
    ∃ rest, fetchBytes s = s.byteAt (s.reg .pc).toNat :: rest :=
  fetchBytes_eq_append s 1 (by decide) h

/-! ### The step, by what the decoder answers -/

theorem executable_of_fetching {s : State} (h : Fetching s) : executable s.cfg (s.reg .pc) = true := by
  obtain ⟨-, hlow, hhigh⟩ := h
  exact (executable_iff _ _).2 ⟨hlow, hhigh⟩

/-- A fatal error of fetch or decode is the whole effect of its step (R160). -/
theorem step_of_fetch_error {s : State} {c : Cause} (hrun : s.engine = .running) (hfetch : fetch s = .error c) :
    ∃ t, step s = .next t ∧ TookFault s t c := by
  refine ⟨_, ?_, tookFault_setEngine s c⟩
  simp only [step, hrun, hfetch, raise]

theorem step_of_decode_ok {s : State} {i : Instr} (h : Fetching s) (hdec : decode (fetchBytes s) = .ok i) :
    step s = exec i s := by
  have hfetch : fetch s = .ok i := (fetch_ok s i).2 ⟨executable_of_fetching h, hdec⟩
  obtain ⟨hrun, -⟩ := h
  simp only [step, hrun, hfetch]

theorem step_of_decode_error {s : State} {e : DecodeError} (h : Fetching s) (hdec : decode (fetchBytes s) = .error e) :
    ∃ t, step s = .next t ∧ TookFault s t (DecodeError.cause (s.reg .pc) e) := by
  have hfetch : fetch s = .error (DecodeError.cause (s.reg .pc) e) :=
    (fetch_error s _).2 (.inr ⟨executable_of_fetching h, e, hdec, rfl⟩)
  obtain ⟨hrun, -⟩ := h
  exact step_of_fetch_error hrun hfetch

/-! ### The obligations -/

/-- Settles O6: fetch answers the decoded instruction, and the step adds nothing to its `exec`. -/
theorem stepRunsDecodedInstruction : Obligations.StepRunsDecodedInstruction := by
  unfold Obligations.StepRunsDecodedInstruction
  intro s i h hdec
  exact step_of_decode_ok h hdec

/-- Settles O7: the fetched bytes start with the instruction's encoding, which decodes to it whatever follows. -/
theorem stepRunsStoredInstruction : Obligations.StepRunsStoredInstruction := by
  unfold Obligations.StepRunsStoredInstruction
  intro s i h hfits hbytes
  obtain ⟨hlen, -⟩ := encodeShape i
  have hstored : s.mem.bytes (s.reg .pc).toNat i.size = encode i := by
    apply List.ext_getElem?
    intro k
    rw [Memory.bytes_getElem?]
    split
    next hk => exact (hbytes k hk).symm
    next hk => exact (List.getElem?_eq_none (by omega)).symm
  obtain ⟨rest, hfetched⟩ := fetchBytes_eq_append s i.size i.shape.size_le_maxInstrBytes hfits
  apply step_of_decode_ok h
  rw [hfetched, hstored]
  exact decodeInvertsEncode i rest

/-- Settles O8: PC fails the check before anything is fetched. -/
theorem outOfBoundsExecutionStops : Obligations.OutOfBoundsExecutionStops := by
  unfold Obligations.OutOfBoundsExecutionStops
  intro s hrun hpc
  have hexec : executable s.cfg (s.reg .pc) = false := by
    rw [← Bool.not_eq_true, executable_iff]
    omega
  exact step_of_fetch_error hrun ((fetch_error s _).2 (.inl ⟨hexec, rfl⟩))

/-- Settles O9: a byte that starts no encoding has no row in the opcode map, so it is refused whatever follows it. -/
theorem illegalOpcodeStops : Obligations.IllegalOpcodeStops := by
  unfold Obligations.IllegalOpcodeStops
  rintro s op h hpc rfl hop
  obtain ⟨rest, hfetched⟩ := fetchBytes_eq_cons s hpc
  refine step_of_decode_error (e := .illegalOpcode _) h ?_
  rw [hfetched]
  exact decode_cons_of_opcodeForm_none _ rest (opcodeForm_eq_none_of_no_encoding _ hop)

/-- Settles O10: the decoder is given fewer bytes than the opcode's form has. -/
theorem missingOperandBytesStop : Obligations.MissingOperandBytesStop := by
  unfold Obligations.MissingOperandBytesStop
  intro s i h hpc hhead hbeyond
  obtain ⟨f, hform, hshape⟩ := exists_form_of_encode_head _ i hhead
  obtain ⟨rest, hfetched⟩ := fetchBytes_eq_cons s hpc
  refine step_of_decode_error (e := .missingBytes) h ?_
  have hlen := fetchBytes_length_le s
  rw [hfetched, List.length_cons] at hlen
  simp only [hfetched, decode, hform]
  apply f.decode_of_short
  rw [hshape]
  change s.cfg.memSize < (s.reg .pc).toNat + i.shape.size at hbeyond
  omega

/-- Settles O11: with all its bytes in the buffer the instruction's form decides, class by class, which field is checked
first. -/
theorem illegalRegisterStops : Obligations.IllegalRegisterStops := by
  unfold Obligations.IllegalRegisterStops
  intro s i h hfits hhead
  obtain ⟨f, hform, hshape⟩ := exists_form_of_encode_head _ i hhead
  obtain ⟨rest, hfetched⟩ := fetchBytes_eq_append s i.size i.shape.size_le_maxInstrBytes hfits
  rw [Instr.size, ← hshape] at hfetched
  rw [← hshape]
  have hstop (b : Byte) (hdec : decode (fetchBytes s) = .error (.illegalRegister b)) :
      ∃ t, step s = .next t ∧ TookFault s t (.illegalRegister b (s.reg .pc)) := step_of_decode_error h hdec
  refine ⟨?firstId, ?secondId, ?lastId⟩
  case firstId =>
    intro hclass hb
    refine hstop _ ?_
    rw [hfetched]
    cases f with
    | none _ => simp [Form.shape] at hclass
    | imm _ => simp [Form.shape] at hclass
    | reg f => exact decode_reg_of_gt _ _ f _ hform hb
    | regImm f => exact decode_regImm_of_gt _ _ _ _ f _ hform hb
    | regReg f => exact decode_regReg_of_rd_gt _ _ _ f _ hform hb
    | regMem f => exact decode_regMem_of_gt _ _ _ _ f _ hform hb
    | memReg _ => simp [Form.shape] at hclass
  case secondId =>
    intro hclass hrd hb
    refine hstop _ ?_
    obtain ⟨rd, hid⟩ := exists_reg_of_le _ hrd
    rw [hfetched]
    cases f with
    | regReg f =>
      have hdec := decode_regReg_of_rs_gt _ _ rd f rest hform hb
      rwa [← hid] at hdec
    | _ => cases hclass
  case lastId =>
    intro hclass hb
    refine hstop _ ?_
    rw [hfetched]
    cases f with
    | memReg f => exact decode_memReg_of_gt _ _ _ _ f _ hform hb
    | _ => cases hclass

end Sys2Proof
end

section
/-! O18, O24 to O27: reset, loading an image, and the parts of the address space (20_memory.md R34 to R37,
70_reset_and_hazards.md R180 to R191). -/

namespace Sys2Proof.Machine

/-! ### What the loader answers -/

theorem parseHeader_eq_none_iff (image : List Byte) : parseHeader image = none ↔ image.length < 13 := by
  constructor
  · intro h
    by_contra hlen
    obtain ⟨n, hn⟩ := Nat.exists_eq_add_of_le' (Nat.not_lt.1 hlen)
    match image, hn with
    | _ :: _ :: _ :: _ :: _ :: _ :: _ :: _ :: _ :: _ :: _ :: _ :: _ :: _, _ => simp [parseHeader] at h
  · intro hlen
    unfold parseHeader
    split
    · simp only [List.length_cons] at hlen
      omega
    · rfl

/-- Where the fields of a header stand in the image (R186). -/
theorem parseHeader_some {image body : List Byte} {h : Header} (hp : parseHeader image = some (h, body)) :
    13 ≤ image.length ∧ image[6]? = some h.endianness ∧
      h.staticSize.toNat = (image.getD 11 0).toNat + 256 * (image.getD 12 0).toNat ∧ body = image.drop 13 := by
  unfold parseHeader at hp
  split at hp
  · cases hp
    simp [leWord_toNat]
  · cases hp

/-- Everything `splitImage` can answer where the image starts with the magic (R188, R190). -/
theorem splitImage_magic_ok (image body : List Byte) (z : Nat) (hmagic : image.take 4 = imageMagic) :
    splitImage image = .ok (z, body) ↔
      13 ≤ image.length ∧ image[6]? = some 0 ∧
        z = (image.getD 11 0).toNat + 256 * (image.getD 12 0).toNat ∧ body = image.drop 13 := by
  unfold splitImage
  rw [if_pos hmagic]
  cases hp : parseHeader image with
  | none =>
    rw [parseHeader_eq_none_iff] at hp
    simp only [reduceCtorEq, false_iff, not_and]
    omega
  | some p =>
    obtain ⟨h, b⟩ := p
    obtain ⟨hlen, hendian, hstatic, rfl⟩ := parseHeader_some hp
    rw [hendian, ← hstatic]
    by_cases hzero : h.endianness = 0#8
    · simp [hzero, hlen, eq_comm]
    · simp [hzero]

/-- An image without the magic is all body (R188). -/
theorem splitImage_headerless (image : List Byte) (hmagic : image.take 4 ≠ imageMagic) :
    splitImage image = .ok (0, image) := by
  rw [splitImage, if_neg hmagic]

/-- Everything `createMachine` can answer but its refusals (R189). -/
theorem createMachine_ok (c : Config) (body : List Byte) (s : State) :
    createMachine c body = .ok s ↔
      c.staticSize ≤ c.programSize ∧ c.programSize + c.stackSize ≤ c.memSize ∧ c.memSize ≤ 65536 ∧
        s = freshState c body := by
  unfold createMachine Config.staticFits Config.segmentsFit Config.memoryAddressable
  by_cases h1 : c.staticSize ≤ c.programSize
  · by_cases h2 : c.programSize + c.stackSize ≤ c.memSize
    · by_cases h3 : c.memSize ≤ 65536
      · simp [h1, h2, h3, eq_comm]
      · simp [h1, h2, h3]
    · simp [h1, h2]
  · simp [h1]

/-- Everything `loadImage` can answer but its refusals: the fresh state of a body that fits. -/
theorem loadImage_ok (p : HostParams) (image : List Byte) (s : State) :
    loadImage p image = .ok s ↔
      ∃ z body, splitImage image = .ok (z, body) ∧ z ≤ body.length ∧ body.length + p.stackSize ≤ p.memSize ∧
        p.memSize ≤ 65536 ∧ s = freshState (p.config z body.length) body := by
  unfold loadImage
  cases splitImage image with
  | error e => simp
  | ok q =>
    obtain ⟨z, body⟩ := q
    rw [createMachine_ok]
    constructor
    · intro h
      exact ⟨z, body, rfl, h⟩
    · rintro ⟨z', body', heq, h⟩
      cases heq
      exact h

/-! ### The fresh state -/

theorem freshState_reg_of_ne (c : Config) (body : List Byte) (r : Reg) (hpc : r ≠ .pc) (hsp : r ≠ .sp) (hbp : r ≠ .bp) :
    (freshState c body).reg r = 0 := by
  cases r with
  | pc => exact absurd rfl hpc
  | sp => exact absurd rfl hsp
  | bp => exact absurd rfl hbp
  | _ => rfl

theorem freshState_byteAt (c : Config) (body : List Byte) (a : Nat) :
    (freshState c body).byteAt a = body.getD a 0 := by
  change (Memory.ofBytes 0 body).read a = _
  simp [Memory.read_ofBytes, unlistedByte]

/-- The memory of a byte string lies below its end. -/
theorem ofBytes_below (bs : List Byte) (a hi : Nat) (h : a + bs.length ≤ hi) :
    (Memory.ofBytes a bs).below hi = true := by
  induction bs generalizing a with
  | nil => rfl
  | cons b rest ih =>
    rw [List.length_cons] at h
    have hrest := ih (a + 1) (by omega)
    unfold Memory.ofBytes
    split
    · exact hrest
    · simp only [Memory.below, List.all_cons, Bool.and_eq_true, decide_eq_true_eq] at hrest ⊢
      exact ⟨by omega, hrest⟩

/-! ### The configuration -/

theorem config_wf_iff (c : Config) :
    c.wf = true ↔
      c.staticSize ≤ c.programSize ∧ c.programSize + c.stackSize ≤ c.memSize ∧ c.memSize ≤ 65536 ∧ c.linksOk = true := by
  simp [Config.wf, Config.staticFits, Config.segmentsFit, Config.memoryAddressable, and_assoc]

/-- `segment` as the five ranges of R35. -/
theorem segment_eq_iff (c : Config) (a : Word) (h : c.wf = true) :
    (segment c a = .programStatic ↔ a.toNat < c.staticSize) ∧
    (segment c a = .programCode ↔ c.staticSize ≤ a.toNat ∧ a.toNat < c.programSize) ∧
    (segment c a = .stack ↔ c.programSize ≤ a.toNat ∧ a.toNat < c.programSize + c.stackSize) ∧
    (segment c a = .heap ↔ c.programSize + c.stackSize ≤ a.toNat ∧ a.toNat < c.memSize) ∧
    (segment c a = .outside ↔ c.memSize ≤ a.toNat) := by
  obtain ⟨hstatic, hsegments, -, -⟩ := (config_wf_iff c).1 h
  unfold segment heapOffset stackOffset
  split_ifs
  all_goals
    simp only [true_iff, false_iff]
    omega

theorem inRange_iff (c : Config) (a : Word) : inRange c a = true ↔ a.toNat < c.memSize := by simp [inRange]

theorem writable_iff (c : Config) (a : Word) :
    writable c a = true ↔ a.toNat < c.memSize ∧ ¬(c.programReadonly = true ∧ a.toNat < c.programSize) := by
  cases hr : c.programReadonly <;> simp [writable, inRange, hr]

end Sys2Proof.Machine

namespace Sys2Proof

open Sys2Proof.Machine

/-- Settles O18: the reset state is closed, so its fields are read off. -/
theorem resetStateValues : Obligations.ResetStateValues := by
  unfold Obligations.ResetStateValues
  refine ⟨⟨rfl, rfl, rfl⟩, rfl, rfl, fun _ => rfl, ?general, rfl, rfl, rfl⟩
  case general => exact freshState_reg_of_ne Config.default []

/-- Settles O24: with the magic the header decides static size and body, without it all is body, and the same three size
checks follow. -/
theorem loaderAcceptsExactly : Obligations.LoaderAcceptsExactly := by
  unfold Obligations.LoaderAcceptsExactly
  intro p image
  simp only [loadImage_ok]
  by_cases hmagic : image.take 4 = imageMagic
  · have hmagic' : image.take 4 = [0xBE, 0xEF, 0xCA, 0xFE] := hmagic
    simp only [splitImage_magic_ok image _ _ hmagic, hmagic', ne_eq, not_true_eq_false, false_implies, true_implies,
      and_true]
    constructor
    · rintro ⟨s, z, body, ⟨hlen, hendian, rfl, rfl⟩, hstatic, hsegments, hmem, -⟩
      rw [List.length_drop] at hstatic hsegments
      exact ⟨hmem, hlen, hendian, hstatic, hsegments⟩
    · rintro ⟨hmem, hlen, hendian, hstatic, hsegments⟩
      rw [← List.length_drop] at hstatic hsegments
      exact ⟨_, _, _, ⟨hlen, hendian, rfl, rfl⟩, hstatic, hsegments, hmem, rfl⟩
  · have hmagic' : image.take 4 ≠ [0xBE, 0xEF, 0xCA, 0xFE] := hmagic
    simp only [splitImage_headerless image hmagic, hmagic', false_implies, true_and, ne_eq, not_false_eq_true,
      true_implies]
    constructor
    · rintro ⟨s, z, body, heq, -, hsegments, hmem, -⟩
      cases heq
      exact ⟨hmem, hsegments⟩
    · rintro ⟨hmem, hsegments⟩
      exact ⟨_, 0, image, rfl, Nat.zero_le _, hsegments, hmem, rfl⟩

/-- Settles O25: a loaded state is the fresh state of the split image, whose fields are the host's and the body's. -/
theorem loadedImageState : Obligations.LoadedImageState := by
  unfold Obligations.LoadedImageState
  intro p image s hload
  obtain ⟨z, body, hsplit, -, -, -, rfl⟩ := (loadImage_ok p image s).1 hload
  refine ⟨rfl, rfl, freshState_reg_of_ne _ _, rfl, rfl, rfl, rfl, rfl, rfl, rfl, rfl, rfl, rfl, rfl, ?magic, ?headerless⟩
  case magic =>
    intro hmagic
    obtain ⟨-, -, hstatic, rfl⟩ := (splitImage_magic_ok image body z hmagic).1 hsplit
    refine ⟨hstatic, List.length_drop .., fun a => ?_⟩
    rw [freshState_byteAt, List.getD_eq_getElem?_getD, List.getElem?_drop, ← List.getD_eq_getElem?_getD]
  case headerless =>
    intro hmagic
    cases (splitImage_headerless image hmagic).symm.trans hsplit
    exact ⟨rfl, rfl, freshState_byteAt _ _⟩

/-- Settles O26: the loader checked the sizes of R189, the body is canonical and no longer than the program segment, and the
static size, below 65536, is what PC holds. -/
theorem loadedImageMeetsInvariant : Obligations.LoadedImageMeetsInvariant := by
  unfold Obligations.LoadedImageMeetsInvariant
  intro p image s hload hlinks
  obtain ⟨z, body, -, hstatic, hsegments, hmem, rfl⟩ := (loadImage_ok p image s).1 hload
  refine ⟨⟨(config_wf_iff _).2 ⟨hstatic, hsegments, hmem, hlinks⟩, Memory.ofBytes_wf body, ?below⟩, ?fetch⟩
  case below =>
    apply ofBytes_below
    change 0 + body.length ≤ p.memSize
    omega
  case fetch =>
    intro hcode
    have hpc : ((freshState (p.config z body.length) body).reg .pc).toNat = z := by
      change (BitVec.ofNat 16 z).toNat = z
      change z < body.length at hcode
      rw [BitVec.toNat_ofNat, Nat.mod_eq_of_lt (by omega)]
    exact ⟨⟨rfl, hpc.ge, hpc.trans_lt hcode⟩, hpc⟩

/-- Settles O27: the parts are the ranges of R35, and the three checks are conditions on the same ranges. -/
theorem segmentsDecideAccess : Obligations.SegmentsDecideAccess := by
  unfold Obligations.SegmentsDecideAccess
  intro c a h
  have hseg := segment_eq_iff c a h
  obtain ⟨hstatic, hcode, -, -, houtside⟩ := id hseg
  obtain ⟨hsizes, hfits, -, -⟩ := (config_wf_iff c).1 h
  refine ⟨?executable, ?inRange, ?writable, hseg⟩
  case executable => rw [executable_iff, hcode]
  case inRange => rw [inRange_iff, ne_eq, houtside, Nat.not_le]
  case writable =>
    have hprogram : (a.toNat < c.staticSize ∨ c.staticSize ≤ a.toNat ∧ a.toNat < c.programSize) ↔
        a.toNat < c.programSize := by omega
    rw [writable_iff, ne_eq, houtside, hstatic, hcode, Nat.not_le, hprogram]

end Sys2Proof
end

section
/-! O28 to O32: the integer instructions (41_arithmetic.md R80 to R89, 60_exceptions.md R164). -/

namespace Sys2Proof.Machine

/-! ### The ALU functions are the ring operations of words -/

theorem trunc16_toNat (a : Word) : trunc16 (a.toNat : Int) = a := by
  rw [trunc16, BitVec.ofInt_natCast, BitVec.ofNat_toNat, BitVec.setWidth_eq]

theorem trunc16_toInt (a : Word) : trunc16 a.toInt = a := BitVec.ofInt_toInt

theorem trunc16_add (m n : Int) : trunc16 (m + n) = trunc16 m + trunc16 n := BitVec.ofInt_add m n

theorem trunc16_mul (m n : Int) : trunc16 (m * n) = trunc16 m * trunc16 n := BitVec.ofInt_mul m n

theorem trunc16_sub (m n : Int) : trunc16 (m - n) = trunc16 m - trunc16 n := by
  rw [eq_sub_iff_add_eq, ← trunc16_add, sub_add_cancel]

theorem aluAdd_eq (a b : Word) : aluAdd a b = a + b := by rw [aluAdd, trunc16_add, trunc16_toNat, trunc16_toNat]

theorem aluSub_eq (a b : Word) : aluSub a b = a - b := by rw [aluSub, trunc16_sub, trunc16_toNat, trunc16_toNat]

theorem aluMul_eq (a b : Word) : aluMul a b = a * b := by rw [aluMul, trunc16_mul, trunc16_toNat, trunc16_toNat]

/-- The signed sum narrows to the same word as the unsigned one (R89). -/
theorem aluAdds_eq_aluAdd (a b : Word) : aluAdds a b = aluAdd a b := by
  rw [aluAdds, trunc16_add, trunc16_toInt, trunc16_toInt, aluAdd_eq]

theorem aluSubs_eq_aluSub (a b : Word) : aluSubs a b = aluSub a b := by
  rw [aluSubs, trunc16_sub, trunc16_toInt, trunc16_toInt, aluSub_eq]

theorem aluMuls_eq_aluMul (a b : Word) : aluMuls a b = aluMul a b := by
  rw [aluMuls, trunc16_mul, trunc16_toInt, trunc16_toInt, aluMul_eq]

/-- Adding 65536 first keeps the exact difference a natural number. -/
theorem aluSub_eq_ofNat (a b : Word) : aluSub a b = BitVec.ofNat 16 (65536 + a.toNat - b.toNat) := by
  rw [aluSub_eq]
  apply BitVec.eq_of_toNat_eq
  rw [BitVec.toNat_sub, BitVec.toNat_ofNat]
  congr 1
  omega

/-! ### Division -/

theorem aluDiv_of_ne_zero (a b : Word) (hb : b ≠ 0) :
    ∃ v, aluDiv a b = some v ∧ v.toNat = a.toNat / b.toNat := by
  have hb' : ¬b.toNat = 0 := by simpa [BitVec.toNat_eq] using hb
  refine ⟨_, if_neg hb', ?_⟩
  rw [trunc16, BitVec.ofInt_natCast, BitVec.toNat_ofNat]
  exact Nat.mod_eq_of_lt ((Nat.div_le_self _ _).trans_lt a.isLt)

theorem aluDivs_of_ne_zero (a b : Word) (hb : b ≠ 0) : aluDivs a b = some (trunc16 (a.toInt.tdiv b.toInt)) := by
  have hb' : ¬b.toInt = 0 := by simpa [← BitVec.toInt_inj] using hb
  exact if_neg hb'

/-- A quotient rounded toward zero that is not 0 has the sign of the product (R88). -/
theorem sign_tdiv_of_ne_zero (m n : Int) (h : m.tdiv n ≠ 0) : (m.tdiv n).sign = m.sign * n.sign := by
  have hsign := Int.sign_tdiv m n
  split at hsign
  · exact absurd (Int.sign_eq_zero_iff_zero.1 hsign) h
  · exact hsign

/-! ### The instructions -/

section
variable (rd rs : Reg) (s : State)

theorem exec_add_eq : exec (.add rd rs) s = finish .regReg s (aluTwo aluAdd rd rs s) := rfl
theorem exec_sub_eq : exec (.sub rd rs) s = finish .regReg s (aluTwo aluSub rd rs s) := rfl
theorem exec_mul_eq : exec (.mul rd rs) s = finish .regReg s (aluTwo aluMul rd rs s) := rfl
theorem exec_adds_eq : exec (.adds rd rs) s = finish .regReg s (aluTwo aluAdds rd rs s) := rfl
theorem exec_subs_eq : exec (.subs rd rs) s = finish .regReg s (aluTwo aluSubs rd rs s) := rfl
theorem exec_muls_eq : exec (.muls rd rs) s = finish .regReg s (aluTwo aluMuls rd rs s) := rfl
theorem exec_div_eq : exec (.div rd rs) s = finish .regReg s (aluDivide aluDiv rd rs s) := rfl
theorem exec_divs_eq : exec (.divs rd rs) s = finish .regReg s (aluDivide aluDivs rd rs s) := rfl

end

/-- An instruction of the two-operand template whose function agrees with another's does what the other does. -/
theorem finish_aluTwo_congr (f g : Word → Word → Word) (h : ∀ a b, f a b = g a b) (rd rs : Reg) (s : State) :
    finish .regReg s (aluTwo f rd rs s) = finish .regReg s (aluTwo g rd rs s) := by
  rw [aluTwo, h, aluTwo]

/-- The division template with a non-zero divisor writes the quotient (R80, R84, R88). -/
theorem finish_aluDivide_wroteReg (f : Word → Word → Option Word) (rd rs : Reg) (s : State) (v : Word)
    (h : f (s.reg rd) (s.reg rs) = some v) :
    ∃ t, finish .regReg s (aluDivide f rd rs s) = .next t ∧ WroteReg s t 3 rd v := by
  rw [(aluDivide_ok f rd rs s _).2 ⟨v, h, rfl⟩, finish_ok]
  exact ⟨_, rfl, wroteReg_retire_setReg .regReg s rd v⟩

/-- The division template with a zero divisor takes `DivideByZero` (R164). -/
theorem finish_aluDivide_tookFault (f : Word → Word → Option Word) (rd rs : Reg) (s : State)
    (h : f (s.reg rd) (s.reg rs) = none) :
    ∃ t, finish .regReg s (aluDivide f rd rs s) = .next t ∧ TookFault s t (.divideByZero (s.reg .pc)) := by
  rw [(aluDivide_error f rd rs s _).2 ⟨h, rfl⟩, finish_error]
  exact ⟨_, rfl, tookFault_setEngine s _⟩

end Sys2Proof.Machine

namespace Sys2Proof

open Sys2Proof.Machine

/-- Settles O28: the two-operand template for the three functions, each the exact result modulo 65536. -/
theorem unsignedAddSubMulResults : Obligations.UnsignedAddSubMulResults := by
  unfold Obligations.UnsignedAddSubMulResults
  intro s rd rs
  refine ⟨?add, ?sub, ?mul⟩
  case add =>
    rw [exec_add_eq, ← BitVec.ofInt_natCast, Nat.cast_add]
    exact finish_aluTwo_wroteReg aluAdd rd rs s
  case sub =>
    rw [exec_sub_eq, ← aluSub_eq_ofNat]
    exact finish_aluTwo_wroteReg aluSub rd rs s
  case mul =>
    rw [exec_mul_eq, ← BitVec.ofInt_natCast, Nat.cast_mul]
    exact finish_aluTwo_wroteReg aluMul rd rs s

/-- Settles O29: each signed function is its unsigned twin, so the two instructions answer the same state. -/
theorem signedAddSubMulResults : Obligations.SignedAddSubMulResults := by
  unfold Obligations.SignedAddSubMulResults
  intro s rd rs
  refine ⟨?adds, ?subs, ?muls⟩
  case adds =>
    obtain ⟨t, hexec, hwrote⟩ := finish_aluTwo_wroteReg aluAdds rd rs s
    exact ⟨t, (exec_adds_eq rd rs s).trans hexec, (finish_aluTwo_congr _ _ aluAdds_eq_aluAdd rd rs s).symm.trans hexec, hwrote⟩
  case subs =>
    obtain ⟨t, hexec, hwrote⟩ := finish_aluTwo_wroteReg aluSubs rd rs s
    exact ⟨t, (exec_subs_eq rd rs s).trans hexec, (finish_aluTwo_congr _ _ aluSubs_eq_aluSub rd rs s).symm.trans hexec, hwrote⟩
  case muls =>
    obtain ⟨t, hexec, hwrote⟩ := finish_aluTwo_wroteReg aluMuls rd rs s
    exact ⟨t, (exec_muls_eq rd rs s).trans hexec, (finish_aluTwo_congr _ _ aluMuls_eq_aluMul rd rs s).symm.trans hexec, hwrote⟩

/-- Settles O30: the written word is the quotient of the natural numbers, which fits in 16 bits. -/
theorem divResult : Obligations.DivResult := by
  unfold Obligations.DivResult
  intro s rd rs hrs
  obtain ⟨v, hdiv, hv⟩ := aluDiv_of_ne_zero (s.reg rd) (s.reg rs) hrs
  obtain ⟨t, hexec, hwrote⟩ := finish_aluDivide_wroteReg aluDiv rd rs s v hdiv
  have hpos : 0 < (s.reg rs).toNat := Nat.pos_of_ne_zero (by simpa [BitVec.toNat_eq] using hrs)
  refine ⟨t, v, (s.reg rd).toNat % (s.reg rs).toNat, (exec_div_eq rd rs s).trans hexec, hwrote, ?_, Nat.mod_lt _ hpos⟩
  rw [hv, Nat.div_add_mod']

/-- Settles O31: the written word is the truncated quotient of the integers, narrowed; only `-32768 / -1` does not fit. -/
theorem divsResult : Obligations.DivsResult := by
  unfold Obligations.DivsResult
  intro s rd rs hrs
  obtain ⟨t, hexec, hwrote⟩ := finish_aluDivide_wroteReg aluDivs rd rs s _ (aluDivs_of_ne_zero _ _ hrs)
  refine ⟨t, _, (exec_divs_eq rd rs s).trans hexec, hwrote, Int.natAbs_tdiv _ _, sign_tdiv_of_ne_zero _ _, ?overflow⟩
  case overflow =>
    intro ha hb
    rw [ha, hb]
    decide

/-- Settles O32: both functions give their divide-by-zero indication exactly on a zero divisor. -/
theorem divideByZeroStops : Obligations.DivideByZeroStops := by
  unfold Obligations.DivideByZeroStops
  intro s rd rs hrs
  exact ⟨finish_aluDivide_tookFault aluDiv rd rs s ((aluDiv_eq_none_iff _ _).2 hrs),
    finish_aluDivide_tookFault aluDivs rd rs s ((aluDivs_eq_none_iff _ _).2 hrs)⟩

end Sys2Proof
end

section
/-! O41 to O46, O49, O50: the stack, the load and the store (20_memory.md R38, R42, R43, 42_stack.md, 43_move.md R123, R124,
60_exceptions.md R165, R166). -/

namespace Sys2Proof.Machine

/-! ### Words in memory -/

/-- The word a memory read gives is the little-endian number of its two bytes (R38). -/
theorem readWord_toNat (m : Memory) (a : Nat) :
    (m.readWord a).toNat = (m.read a).toNat + 256 * (m.read (a + 1)).toNat := leWord_toNat _ _

theorem readWord_of_holdsWord {s : State} {a v : Word} (h : HoldsWord s a v) : s.mem.readWord a.toNat = v := by
  obtain ⟨hlow, hhigh⟩ := h
  apply BitVec.eq_of_toNat_eq
  rw [readWord_toNat]
  change (s.mem.read a.toNat).toNat = _ at hlow
  change (s.mem.read (a.toNat + 1)).toNat = _ at hhigh
  omega

/-- After a word write the word is there and no other byte has changed. -/
theorem holdsWord_of_writeWord {s t : State} {a v : Word} (hwf : s.mem.wf = true)
    (hmem : t.mem = s.mem.writeWord a.toNat v) : HoldsWord t a v ∧ SameBytesButWord s t a := by
  refine ⟨⟨?low, ?high⟩, fun x h0 h1 => ?other⟩
  case low => rw [State.byteAt, hmem, Memory.read_writeWord_low _ _ _ hwf, loByte_toNat]
  case high => rw [State.byteAt, hmem, Memory.read_writeWord_high _ _ _ hwf, hiByte_toNat]
  case other => rw [State.byteAt, hmem, Memory.read_writeWord_other _ _ _ _ h0 h1, State.byteAt]

/-! ### One access, by where its word lies -/

section
variable {s : State} {a : Word}

theorem memRead_of_fits (h : WordFits s a) : memRead s a = .ok (s.mem.readWord a.toNat) :=
  (memRead_ok s a _).2 ⟨h, rfl⟩

theorem memRead_of_holdsWord {v : Word} (h : WordFits s a) (hv : HoldsWord s a v) : memRead s a = .ok v := by
  rw [memRead_of_fits h, readWord_of_holdsWord hv]

theorem memRead_of_not_fits (h : ¬WordFits s a) : memRead s a = .error (.outOfBoundsAccess a) :=
  (memRead_error s a _).2 ⟨Nat.not_le.1 h, rfl⟩

theorem memWrite_of_open (v : Word) (h : WordFits s a) (hopen : ¬WriteBlocked s a) :
    memWrite s a v = .ok (s.setMem (s.mem.writeWord a.toNat v)) :=
  (memWrite_ok s _ a v).2 ⟨h, .inr ⟨hopen, rfl⟩⟩

theorem memWrite_of_blocked (v : Word) (h : WordFits s a) (hblocked : WriteBlocked s a) :
    memWrite s a v = .ok (s.setEngine .halted) :=
  (memWrite_ok s _ a v).2 ⟨h, .inl ⟨hblocked, rfl⟩⟩

theorem memWrite_of_not_fits (v : Word) (h : ¬WordFits s a) : memWrite s a v = .error (.outOfBoundsAccess a) :=
  (memWrite_error s a v _).2 ⟨Nat.not_le.1 h, rfl⟩

end

/-! ### The end of an instruction after one access -/

/-- A fatal error of the semantics is the whole effect of the instruction (R160). -/
theorem finish_tookFault (sh : Shape) (s : State) {x : Except Cause State} {c : Cause} (h : x = .error c) :
    ∃ t, finish sh s x = .next t ∧ TookFault s t c := by
  rw [h, finish_error]
  exact ⟨_, rfl, tookFault_setEngine s c⟩

/-- Whatever follows a read that does not fit, the instruction takes `OutOfBoundsAccess` at its address (R42, R165). -/
theorem finish_memRead_tookFault (sh : Shape) {s : State} {a : Word} (h : ¬WordFits s a)
    (k : Word → Except Cause State) :
    ∃ t, finish sh s (match memRead s a with | .error c => .error c | .ok v => k v) = .next t ∧
      TookFault s t (.outOfBoundsAccess a) := by
  apply finish_tookFault
  rw [memRead_of_not_fits h]

/-- `t` is `s` after an instruction of `size` bytes that pushed `v` into writable memory (R110). -/
def Pushed (s t : State) (size : Nat) (v : Word) : Prop :=
  HoldsWord t (s.reg .sp) v ∧ SameBytesButWord s t (s.reg .sp) ∧ t.reg .sp = s.reg .sp + 2 ∧
    t.reg .pc = s.reg .pc + BitVec.ofNat 16 size ∧ SameRegsBut s t [.sp, .pc] ∧ t.engine = s.engine ∧
    t.icount = s.icount + 1

/-- `t` is `s` after an instruction of `size` bytes whose push was discarded (R43, R110, R166). -/
def PushDiscarded (s t : State) (size : Nat) : Prop :=
  t.engine = .halted ∧ SameBytes s t ∧ t.reg .sp = s.reg .sp + 2 ∧ t.reg .pc = s.reg .pc + BitVec.ofNat 16 size ∧
    SameRegsBut s t [.sp, .pc] ∧ t.icount = s.icount + 1

/-- Moving SP and retiring writes no other register than these two. -/
theorem sameRegsBut_retire_setReg_sp {s u : State} (sh : Shape) (v : Word) (hcfg : u.cfg = s.cfg)
    (hreg : ∀ r, u.reg r = s.reg r) : SameRegsBut s (retire sh (u.setReg .sp v)) [.sp, .pc] := by
  refine ⟨hcfg, fun r hr => ?_⟩
  obtain ⟨hsp, hpc⟩ : r ≠ .sp ∧ r ≠ .pc := by simpa using hr
  simp [hsp, hpc, hreg]

section
variable (sh : Shape) {s : State} (v : Word)

theorem finish_push_pushed (hwf : s.mem.wf = true) (hfits : WordFits s (s.reg .sp))
    (hopen : ¬WriteBlocked s (s.reg .sp)) : ∃ t, finish sh s (push s v) = .next t ∧ Pushed s t sh.size v := by
  rw [(push_ok s _ v).2 ⟨_, memWrite_of_open v hfits hopen, rfl⟩, finish_ok]
  obtain ⟨hword, hother⟩ := holdsWord_of_writeWord
    (t := retire sh ((s.setMem (s.mem.writeWord (s.reg .sp).toNat v)).setReg .sp (s.reg .sp + 2))) hwf rfl
  exact ⟨_, rfl, hword, hother, by simp, by simp, sameRegsBut_retire_setReg_sp sh _ rfl fun _ => rfl, rfl, rfl⟩

theorem finish_push_discarded (hfits : WordFits s (s.reg .sp)) (hblocked : WriteBlocked s (s.reg .sp)) :
    ∃ t, finish sh s (push s v) = .next t ∧ PushDiscarded s t sh.size := by
  rw [(push_ok s _ v).2 ⟨_, memWrite_of_blocked v hfits hblocked, rfl⟩, finish_ok]
  exact ⟨_, rfl, rfl, fun _ => rfl, by simp, by simp, sameRegsBut_retire_setReg_sp sh _ rfl fun _ => rfl, rfl⟩

theorem finish_push_tookFault (hfits : ¬WordFits s (s.reg .sp)) :
    ∃ t, finish sh s (push s v) = .next t ∧ TookFault s t (.outOfBoundsAccess (s.reg .sp)) :=
  finish_tookFault sh s ((push_error s v _).2 ⟨Nat.not_le.1 hfits, rfl⟩)

end

/-! ### The instructions -/

theorem exec_push_eq (r : Reg) (s : State) : exec (.push r) s = finish .reg s (push s (s.reg r)) := rfl

theorem exec_pushImm_eq (v : Word) (s : State) : exec (.pushImm v) s = finish .imm s (push s v) := rfl

/-- DUP is a push of the word below SP, once that word can be read (R114). -/
theorem exec_dup_of_memRead {s : State} {v : Word} (h : memRead s (s.reg .sp - 2) = .ok v) :
    exec .dup s = finish .none s (push s v) := by
  change finish .none s (match memRead s (s.reg .sp - 2) with | .error c => .error c | .ok v => push s v) = _
  rw [h]

/-- CMP reads the top word once the deeper one can be read (R131). -/
theorem exec_cmp_of_memRead {s : State} {a : Word} (h : memRead s (s.reg .sp - 4) = .ok a) :
    exec .cmp s =
      finish .none s
        (match memRead s (s.reg .sp - 2) with | .error c => .error c | .ok b => .ok (compareInto a b s)) := by
  change memRead s (belowSp s 4) = .ok a at h
  change execCmp s = _
  unfold execCmp
  rw [h]
  rfl

/-- The state POP leaves where its word can be read (R113): SP moved down, then the register written. -/
theorem exec_pop_of_fits {s : State} (r : Reg) (h : WordFits s (s.reg .sp - 2)) :
    exec (.pop r) s =
      .next (retire .reg
        ((s.setReg .sp (s.reg .sp - 2)).setReg r (s.mem.readWord (s.reg .sp - 2).toNat))) := by
  have hpop : pop s = .ok (s.mem.readWord (s.reg .sp - 2).toNat, s.setReg .sp (s.reg .sp - 2)) :=
    (pop_ok s _ _).2 ⟨h, rfl, rfl⟩
  change finish .reg s (match pop s with | .error c => .error c | .ok (v, t) => .ok (t.setReg r v)) = _
  rw [hpop, finish_ok]

theorem exec_movRegMem_eq (r : Reg) (a : Word) (s : State) :
    exec (.movRegMem r a) s = finish .regMem s (copyWord (.reg r) (.mem a) s) := rfl

/-- The store is a memory write of the register's word (R124). -/
theorem exec_movMemReg_eq (a : Word) (r : Reg) (s : State) :
    exec (.movMemReg a r) s = finish .memReg s (memWrite s a (s.reg r)) := rfl

end Sys2Proof.Machine

namespace Sys2Proof

open Sys2Proof.Machine

/-- Settles O41: both instructions are a push, of the register's word from before or of the immediate. -/
theorem pushStoresWord : Obligations.PushStoresWord := by
  unfold Obligations.PushStoresWord
  intro s r v hwf hfits hopen
  rw [exec_push_eq, exec_pushImm_eq]
  exact ⟨finish_push_pushed .reg (s.reg r) hwf hfits hopen, finish_push_pushed .imm v hwf hfits hopen⟩

/-- Settles O42: the two register writes of R113 in their order, then the advance. -/
theorem popTakesWord : Obligations.PopTakesWord := by
  unfold Obligations.PopTakesWord
  intro s r hfits
  refine ⟨_, _, exec_pop_of_fits r hfits, readWord_toNat _ _, ?dest, ?sp, ?pc, ⟨rfl, ?others⟩, fun _ => rfl, rfl, rfl⟩
  case dest =>
    intro hr
    simp [hr]
  case sp =>
    intro hr
    simp [Ne.symm hr]
  case pc => simp [eq_comm, Shape.size]
  case others =>
    intro q hq
    obtain ⟨hr, hsp, hpc⟩ : q ≠ r ∧ q ≠ .sp ∧ q ≠ .pc := by simpa using hq
    simp [hr, hsp, hpc]

/-- Settles O43: the word below SP is readable and holds `v`, so DUP is a push of `v`. -/
theorem dupPushesCopy : Obligations.DupPushesCopy := by
  unfold Obligations.DupPushesCopy
  intro s v hwf hholds hbelow hfits hopen
  rw [exec_dup_of_memRead (memRead_of_holdsWord hbelow hholds)]
  exact finish_push_pushed .none v hwf hfits hopen

/-- Settles O44: the push leaves the word just below the new SP, where the pop reads it back. -/
theorem pushThenPopCopiesRegister : Obligations.PushThenPopCopiesRegister := by
  unfold Obligations.PushThenPopCopiesRegister
  intro s r q hwf hfits hopen
  obtain ⟨t, hpush, ⟨hlow, hhigh⟩, -, htsp, -, ⟨htcfg, htregs⟩, -⟩ :=
    finish_push_pushed .reg (s.reg r) hwf hfits hopen
  have hback : t.reg .sp - 2 = s.reg .sp := by rw [htsp, add_sub_cancel_right]
  have hfits' : WordFits t (t.reg .sp - 2) := by rwa [hback, WordFits, htcfg]
  obtain ⟨u, v, hpop, hv, hq, husp, -, ⟨hucfg, huregs⟩, -⟩ := popTakesWord t q hfits'
  have hvr : v = s.reg r := by
    apply BitVec.eq_of_toNat_eq
    rw [hv, hback, hlow, hhigh]
    omega
  refine ⟨t, u, hpush, hpop, fun h => (hq h).trans hvr, fun h => (husp h).trans hback, hucfg.trans htcfg, fun x hx => ?_⟩
  obtain ⟨-, hsp, hpc⟩ : x ≠ q ∧ x ≠ .sp ∧ x ≠ .pc := by simpa using hx
  rw [huregs x hx, htregs x (by simp [hsp, hpc])]

/-- Settles O45: a blocked write is the soft halt, after which SP, PC and the count move as after a performed one. -/
theorem illegalWriteHalts : Obligations.IllegalWriteHalts := by
  unfold Obligations.IllegalWriteHalts
  intro s r v a
  refine ⟨fun hfits hblocked => ⟨?push, ?pushImm, ?dup⟩, fun hfits hblocked => ?store⟩
  case push =>
    rw [exec_push_eq]
    exact finish_push_discarded .reg (s.reg r) hfits hblocked
  case pushImm => exact finish_push_discarded .imm v hfits hblocked
  case dup =>
    intro hbelow
    rw [exec_dup_of_memRead (memRead_of_fits hbelow)]
    exact finish_push_discarded .none _ hfits hblocked
  case store =>
    rw [exec_movMemReg_eq, memWrite_of_blocked _ hfits hblocked, finish_ok]
    refine ⟨_, rfl, rfl, fun _ => rfl, by simp [Shape.size], ⟨rfl, fun q hq => ?_⟩, rfl⟩
    have hpc : q ≠ .pc := by simpa using hq
    simp [hpc]

/-- Settles O46: the first access that does not fit ends each instruction, in the order R114 and R131 give. -/
theorem outOfBoundsAccessStops : Obligations.OutOfBoundsAccessStops := by
  unfold Obligations.OutOfBoundsAccessStops
  intro s r v a
  refine ⟨fun hsp => ⟨?push, ?pushImm, ?dupSecond⟩, fun hbelow => ⟨?pop, ?dupFirst, ?cmpSecond⟩, fun hdeep => ?cmpFirst,
    fun ha => ⟨?load, ?store, ?cmpRegMem, ?cmpMemReg⟩⟩
  case push => exact finish_push_tookFault .reg (s.reg r) hsp
  case pushImm => exact finish_push_tookFault .imm v hsp
  case dupSecond =>
    intro hbelow
    rw [exec_dup_of_memRead (memRead_of_fits hbelow)]
    exact finish_push_tookFault .none _ hsp
  case pop =>
    refine finish_tookFault .reg s ?_
    rw [(pop_error s _).2 ⟨Nat.not_le.1 hbelow, rfl⟩]
    rfl
  case dupFirst => exact finish_memRead_tookFault .none hbelow _
  case cmpSecond =>
    intro hdeep
    rw [exec_cmp_of_memRead (memRead_of_fits hdeep)]
    exact finish_memRead_tookFault .none hbelow _
  case cmpFirst => exact finish_memRead_tookFault .none hdeep _
  case load => exact finish_tookFault .regMem s ((copyWord_error _ _ _ _).2 (.inl (memRead_of_not_fits ha)))
  case store => exact finish_tookFault .memReg s (memWrite_of_not_fits _ ha)
  case cmpRegMem => exact finish_memRead_tookFault .regMem ha _
  case cmpMemReg => exact finish_memRead_tookFault .memReg ha _

/-- Settles O49: the load is a copy into a register of a source that gives the word at the address, or its error. -/
theorem loadResult : Obligations.LoadResult := by
  unfold Obligations.LoadResult
  refine ⟨?encoding, ?refusal, fun s r a => ⟨?fits, ?faults⟩⟩
  case encoding =>
    intro r a
    exact ⟨loByte a, hiByte a, rfl, toNat_eq_loByte_add_hiByte a⟩
  case refusal =>
    intro b lo hi rest hb
    exact decode_regMem_of_gt 0xA0 b lo hi .movRegMem rest rfl hb
  case fits =>
    intro hfits
    obtain ⟨t, hexec, hwrote⟩ := finish_copyWord_reg_wroteReg .regMem r (.mem a) s _ (memRead_of_fits hfits)
    exact ⟨t, _, (exec_movRegMem_eq r a s).trans hexec, hwrote, readWord_toNat _ _⟩
  case faults =>
    intro hfits
    exact finish_tookFault .regMem s ((copyWord_error _ _ _ _).2 (.inl (memRead_of_not_fits hfits)))

/-- Settles O50: the store is one performed memory write, then the advance. -/
theorem storeResult : Obligations.StoreResult := by
  unfold Obligations.StoreResult
  intro s a r hwf hfits hopen
  rw [exec_movMemReg_eq, memWrite_of_open _ hfits hopen, finish_ok]
  obtain ⟨hword, hother⟩ := holdsWord_of_writeWord
    (t := retire .memReg (s.setMem (s.mem.writeWord a.toNat (s.reg r)))) hwf rfl
  refine ⟨_, rfl, hword, hother, by simp [Shape.size], ⟨rfl, fun q hq => ?_⟩, rfl, rfl⟩
  have hpc : q ≠ .pc := by simpa using hq
  simp [hpc]

end Sys2Proof
end

section
/-! O51 to O53, O55, O56, O58, O59: the compares, the derived jumps, CALL with RET, and HALT (10_state.md R17, R18,
44_compare.md, 45_control.md). -/

namespace Sys2Proof.Machine

/-! ### FLAGS after a compare, one bit at a time -/

/-- The mask of R18 keeps bits 15:3. -/
theorem keepMask_getLsbD (i : Nat) : (0xFFF8 : Word).getLsbD i = (decide (3 ≤ i) && decide (i < 16)) := by
  by_cases hi : i < 16
  · have hall : ∀ j < 16, (0xFFF8 : Word).getLsbD j = (decide (3 ≤ j) && decide (j < 16)) := by decide
    exact hall i hi
  · rw [BitVec.getLsbD_of_ge _ _ (Nat.not_lt.1 hi), decide_eq_false hi, Bool.and_false]

theorem CmpOutcome.mask_getLsbD_of_le (o : CmpOutcome) (i : Nat) (hi : 3 ≤ i) : o.mask.getLsbD i = false := by
  have hlt : o.mask.toNat < 2 ^ i := by
    have h8 : o.mask.toNat < 2 ^ 3 := by cases o <;> decide
    exact h8.trans_le (Nat.pow_le_pow_right (by decide) hi)
  exact Nat.testBit_lt_two_pow hlt

/-- Below bit 3 FLAGS are the outcome's mask (R17, R18). -/
theorem setCompare_getLsbD_of_lt (flags : Word) (o : CmpOutcome) (i : Nat) (hi : i < 3) :
    (setCompare flags o).getLsbD i = o.mask.getLsbD i := by
  rw [setCompare, BitVec.getLsbD_or, BitVec.getLsbD_and, keepMask_getLsbD, decide_eq_false (by omega), Bool.false_and,
    Bool.and_false, Bool.false_or]

/-- From bit 3 on FLAGS are as before (R18). -/
theorem setCompare_getLsbD_of_le (flags : Word) (o : CmpOutcome) (i : Nat) (hi : 3 ≤ i) :
    (setCompare flags o).getLsbD i = flags.getLsbD i := by
  rw [setCompare, BitVec.getLsbD_or, BitVec.getLsbD_and, keepMask_getLsbD, o.mask_getLsbD_of_le i hi,
    decide_eq_true hi, Bool.true_and, Bool.or_false]
  by_cases h16 : i < 16
  · rw [decide_eq_true h16, Bool.and_true]
  · rw [decide_eq_false h16, Bool.and_false, BitVec.getLsbD_of_ge _ _ (Nat.not_lt.1 h16)]

/-- Each bit of the mask says whether its outcome is the one of the unsigned order (R17, R130). -/
theorem compareWords_mask_getLsbD (a b : Word) :
    (compareWords a b).mask.getLsbD 0 = decide (a.toNat = b.toNat) ∧
    (compareWords a b).mask.getLsbD 1 = decide (a.toNat < b.toNat) ∧
    (compareWords a b).mask.getLsbD 2 = decide (b.toNat < a.toNat) := by
  unfold compareWords
  rcases Nat.lt_trichotomy a.toNat b.toNat with h | h | h
  · rw [if_neg h.ne, if_pos h, decide_eq_false h.ne, decide_eq_true h, decide_eq_false h.not_gt]
    decide
  · rw [if_pos h, decide_eq_true h, decide_eq_false h.not_lt, decide_eq_false h.not_gt]
    decide
  · rw [if_neg h.ne', if_neg h.not_gt, decide_eq_false h.ne', decide_eq_false h.not_gt, decide_eq_true h]
    decide

/-- Comparing and retiring is the effect `Compared` describes. -/
theorem compared_retire_compareInto (sh : Shape) (s : State) (a b : Word) :
    Compared s (retire sh (compareInto a b s)) sh.size a b := by
  have hflags : (retire sh (compareInto a b s)).reg .flags = setCompare (s.reg .flags) (compareWords a b) := by
    simp [compareInto]
  obtain ⟨heq, hlt, hgt⟩ := compareWords_mask_getLsbD a b
  unfold Compared
  rw [hflags, setCompare_getLsbD_of_lt _ _ 0 (by decide), setCompare_getLsbD_of_lt _ _ 1 (by decide),
    setCompare_getLsbD_of_lt _ _ 2 (by decide)]
  refine ⟨heq, hlt, hgt, setCompare_getLsbD_of_le _ _, by simp [compareInto], ⟨rfl, fun r hr => ?_⟩, fun _ => rfl, rfl,
    rfl⟩
  obtain ⟨hf, hpc⟩ : r ≠ .flags ∧ r ≠ .pc := by simpa using hr
  simp [compareInto, hf, hpc]

/-! ### The compares with memory -/

theorem exec_cmpRegMem_of_memRead {s : State} (r : Reg) {a m : Word} (h : memRead s a = .ok m) :
    exec (.cmpRegMem r a) s = .next (retire .regMem (compareSided s.cfg.regMemLeft (s.reg r) m s)) := by
  change execCmpRegMem r a s = _
  unfold execCmpRegMem
  rw [h, finish_ok]

theorem exec_cmpMemReg_of_memRead {s : State} (r : Reg) {a m : Word} (h : memRead s a = .ok m) :
    exec (.cmpMemReg a r) s = .next (retire .memReg (compareSided s.cfg.memRegLeft (s.reg r) m s)) := by
  change execCmpMemReg a r s = _
  unfold execCmpMemReg
  rw [h, finish_ok]

/-- A sided compare takes its left comparand from the side the configuration names (R133, R134). -/
theorem compared_retire_compareSided (sh : Shape) (s : State) (left : CmpSide) (v m : Word) :
    (left = .register → Compared s (retire sh (compareSided left v m s)) sh.size v m) ∧
      (left = .memory → Compared s (retire sh (compareSided left v m s)) sh.size m v) := by
  constructor
  · rintro rfl
    exact compared_retire_compareInto sh s v m
  · rintro rfl
    exact compared_retire_compareInto sh s m v

/-! ### CALL -/

/-- The link registers of R148 are three different general registers. -/
theorem linksOk_distinct (c : Config) (h : c.linksOk = true) :
    c.linkSp ≠ c.linkBp ∧ c.linkSp ≠ c.linkRa ∧ c.linkBp ≠ c.linkRa := by
  simp only [Config.linksOk, Bool.and_eq_true, bne_iff_ne] at h
  obtain ⟨⟨⟨-, hspbp⟩, hspra⟩, hbpra⟩ := h
  exact ⟨hspbp, hspra, hbpra⟩

/-- The state CALL leaves (R148): five register writes, counted. -/
def callState (addr : Word) (s : State) : State :=
  (((((s.setReg s.cfg.linkBp (s.reg .bp)).setReg s.cfg.linkSp (s.reg .sp)).setReg s.cfg.linkRa
    (s.reg .pc + 3)).setReg .bp (s.reg .sp)).setReg .pc addr).count

theorem exec_call_eq (addr : Word) (s : State) : exec (.call addr) s = .next (callState addr s) := rfl

theorem callState_reg_pc (addr : Word) (s : State) : (callState addr s).reg .pc = addr := by simp [callState]

theorem callState_reg_bp (addr : Word) (s : State) : (callState addr s).reg .bp = s.reg .sp := by simp [callState]

/-- With well-formed link registers no write of CALL hides another. -/
theorem callState_reg_links (addr : Word) (s : State) (h : s.cfg.linksOk = true) :
    (callState addr s).reg s.cfg.linkBp = s.reg .bp ∧ (callState addr s).reg s.cfg.linkSp = s.reg .sp ∧
      (callState addr s).reg s.cfg.linkRa = s.reg .pc + 3 := by
  obtain ⟨hsp, hbp, hra⟩ := linksOk_isGeneral s.cfg h
  obtain ⟨hspbp, hspra, hbpra⟩ := linksOk_distinct s.cfg h
  obtain ⟨hspBp, -, hspPc⟩ := ne_pointer_of_isGeneral _ hsp
  obtain ⟨hbpBp, -, hbpPc⟩ := ne_pointer_of_isGeneral _ hbp
  obtain ⟨hraBp, -, hraPc⟩ := ne_pointer_of_isGeneral _ hra
  simp [callState, *, hspbp.symm]

theorem callState_sameRegsBut (addr : Word) (s : State) :
    SameRegsBut s (callState addr s) [s.cfg.linkSp, s.cfg.linkBp, s.cfg.linkRa, .bp, .pc] := by
  refine ⟨rfl, fun r hr => ?_⟩
  obtain ⟨hsp, hbp, hra, hBp, hPc⟩ :
      r ≠ s.cfg.linkSp ∧ r ≠ s.cfg.linkBp ∧ r ≠ s.cfg.linkRa ∧ r ≠ .bp ∧ r ≠ .pc := by simpa using hr
  simp [callState, hsp, hbp, hra, hBp, hPc]

/-! ### The derived jumps -/

theorem exec_jumpNeq_eq (a : Word) (s : State) : exec (.jumpNeq a) s = jumpIf (!(s.reg .flags).getLsbD 0) a s := rfl

theorem exec_jumpGeq_eq (a : Word) (s : State) :
    exec (.jumpGeq a) s = jumpIf ((s.reg .flags).getLsbD 2 || (s.reg .flags).getLsbD 0) a s := rfl

theorem exec_jumpLeq_eq (a : Word) (s : State) :
    exec (.jumpLeq a) s = jumpIf ((s.reg .flags).getLsbD 1 || (s.reg .flags).getLsbD 0) a s := rfl

end Sys2Proof.Machine

namespace Sys2Proof

open Sys2Proof.Machine

/-- Settles O51: CMP_REG_REG is a plain compare of its registers. -/
theorem cmpRegRegResult : Obligations.CmpRegRegResult := by
  unfold Obligations.CmpRegRegResult
  intro s rd rs
  exact ⟨_, rfl, compared_retire_compareInto .regReg s (s.reg rd) (s.reg rs)⟩

/-- Settles O52: both words are readable and are those held, the deeper one on the left. -/
theorem cmpStackResult : Obligations.CmpStackResult := by
  unfold Obligations.CmpStackResult
  intro s a b hdeep htop hholdsA hholdsB
  rw [exec_cmp_of_memRead (memRead_of_holdsWord hdeep hholdsA), memRead_of_holdsWord htop hholdsB, finish_ok]
  exact ⟨_, rfl, compared_retire_compareInto .none s a b⟩

/-- Settles O53: the word is readable and is the one held, and the side named on the left is the configuration's. -/
theorem cmpMemoryResults : Obligations.CmpMemoryResults := by
  unfold Obligations.CmpMemoryResults
  intro s r a m hfits hholds
  have hread := memRead_of_holdsWord hfits hholds
  obtain ⟨hregLeft, hmemLeft⟩ := compared_retire_compareSided .regMem s s.cfg.regMemLeft (s.reg r) m
  obtain ⟨hregLeft', hmemLeft'⟩ := compared_retire_compareSided .memReg s s.cfg.memRegLeft (s.reg r) m
  exact ⟨⟨_, exec_cmpRegMem_of_memRead r hread, hregLeft, hmemLeft⟩,
    ⟨_, exec_cmpMemReg_of_memRead r hread, hmemLeft', hregLeft'⟩⟩

/-- Settles O55: each of the three is the template of R140 with a Boolean combination of flag bits as the condition. -/
theorem derivedJumpResults : Obligations.DerivedJumpResults := by
  unfold Obligations.DerivedJumpResults
  intro s a
  refine ⟨?neq, ?geq, ?leq⟩
  case neq =>
    rw [exec_jumpNeq_eq]
    have h := jumpIf_jumped (!(s.reg .flags).getLsbD 0) a s
    simpa only [Bool.not_eq_true', Bool.eq_false_iff, ne_eq, ite_not] using h
  case geq =>
    rw [exec_jumpGeq_eq]
    have h := jumpIf_jumped ((s.reg .flags).getLsbD 2 || (s.reg .flags).getLsbD 0) a s
    simpa only [Bool.or_eq_true] using h
  case leq =>
    rw [exec_jumpLeq_eq]
    have h := jumpIf_jumped ((s.reg .flags).getLsbD 1 || (s.reg .flags).getLsbD 0) a s
    simpa only [Bool.or_eq_true] using h

/-- Settles O56: the five writes of CALL go to five different registers. -/
theorem callSavesLinks : Obligations.CallSavesLinks := by
  unfold Obligations.CallSavesLinks
  intro s a hlinks
  obtain ⟨hbp, hsp, hra⟩ := callState_reg_links a s hlinks
  exact ⟨callState a s, exec_call_eq a s, hbp, hsp, hra, callState_reg_bp a s, callState_reg_pc a s,
    callState_sameRegsBut a s, fun _ => rfl, rfl, rfl⟩

/-- Settles O58: RET copies back from the link registers what CALL saved there. -/
theorem callThenRetReturns : Obligations.CallThenRetReturns := by
  unfold Obligations.CallThenRetReturns
  intro s a hlinks
  obtain ⟨hbp, hsp, hra⟩ := callState_reg_links a s hlinks
  refine ⟨callState a s, exec_call_eq a s, fun u hcfg husp hubp hura => ?_⟩
  have hcfg' : u.cfg = s.cfg := hcfg
  refine ⟨retState u, exec_ret_eq u, ?sp, ?bp, ?pc⟩
  case sp => rw [retState_reg_sp, hcfg', husp, hsp]
  case bp => rw [retState_reg_bp, hcfg', hubp, hbp]
  case pc => rw [retState_reg_pc, hcfg', hura, hra]

/-- Settles O59: HALT changes the engine state and is retired like any instruction of class `NONE`. -/
theorem haltResult : Obligations.HaltResult := by
  unfold Obligations.HaltResult
  intro s
  obtain ⟨hpc, hregs, hbytes, hengine, hcount⟩ := jumped_retire .none (s.setEngine .halted)
  exact ⟨_, rfl, hengine, hpc, hregs, hbytes, hcount⟩

end Sys2Proof
end

section
/-! O35: the fields of a half-precision word, and rounding to the nearest one (41_arithmetic.md R91 to R93). -/

namespace Sys2Proof.Machine

/-! ### The three fields -/

theorem halfSign_eq_decide (w : Word) : halfSign w = decide (32768 ≤ w.toNat) := by
  rw [halfSign, BitVec.getLsbD, Nat.testBit_eq_decide_div_mod_eq]
  have h := w.isLt
  congr 1
  rw [eq_iff_iff]
  omega

theorem halfExp_lt (w : Word) : halfExp w < 32 := Nat.mod_lt _ (by decide)

theorem halfFrac_lt (w : Word) : halfFrac w < 1024 := Nat.mod_lt _ (by decide)

/-- A word is the number its three fields spell (R91). -/
theorem toNat_eq_fields (w : Word) :
    w.toNat = (if halfSign w = true then 32768 else 0) + halfExp w * 1024 + halfFrac w := by
  have h := w.isLt
  rw [halfSign_eq_decide, halfExp, halfFrac]
  simp only [decide_eq_true_eq]
  split <;> omega

theorem eq_of_fields_eq {v w : Word} (hsign : halfSign v = halfSign w) (hexp : halfExp v = halfExp w)
    (hfrac : halfFrac v = halfFrac w) : v = w := by
  apply BitVec.eq_of_toNat_eq
  rw [toNat_eq_fields v, toNat_eq_fields w, hsign, hexp, hfrac]

/-- Packing fields that fit and taking the word apart gives the fields back (R91). -/
theorem packHalf_fields (neg : Bool) {e f : Nat} (he : e < 32) (hf : f < 1024) :
    halfSign (packHalf neg e f) = neg ∧ halfExp (packHalf neg e f) = e ∧ halfFrac (packHalf neg e f) = f := by
  have htoNat : (packHalf neg e f).toNat = (if neg = true then 32768 else 0) + e * 1024 + f := by
    rw [packHalf, BitVec.toNat_ofNat]
    cases neg <;> simp only [if_true, if_false, Bool.false_eq_true] <;> omega
  rw [halfSign_eq_decide, halfExp, halfFrac, htoNat]
  cases neg <;> simp only [if_true, if_false, Bool.false_eq_true, decide_eq_true_eq, decide_eq_false_iff_not] <;> omega

/-! ### Magnitudes -/

/-- Below the next binade (R92). -/
theorem magnitude_lt (w : Word) : magnitude w < 1024 * 2 ^ halfExp w := by
  have hf := halfFrac_lt w
  unfold magnitude
  split
  · next h => rw [h]; omega
  · next h =>
    obtain ⟨e, he⟩ := Nat.exists_eq_succ_of_ne_zero h
    rw [he, Nat.succ_sub_one, Nat.pow_succ]
    have hpos : 0 < 2 ^ e := by positivity
    nlinarith

/-- A normal value is not below its binade (R92). -/
theorem le_magnitude (w : Word) (h : halfExp w ≠ 0) : 1024 * 2 ^ (halfExp w - 1) ≤ magnitude w := by
  rw [magnitude, if_neg h]
  exact Nat.mul_le_mul_right _ (Nat.le_add_right _ _)

/-- At or above a binade every magnitude is a multiple of the binade's spacing. -/
theorem dvd_magnitude_or_lt (w : Word) (k : Nat) : 2 ^ k ∣ magnitude w ∨ (0 < k ∧ magnitude w < 1024 * 2 ^ k) := by
  rcases Nat.lt_or_ge k (halfExp w) with h | h
  · left
    rw [magnitude, if_neg (by omega)]
    exact Dvd.dvd.mul_left (Nat.pow_dvd_pow 2 (by omega)) _
  · rcases Nat.eq_zero_or_pos k with rfl | hk
    · exact .inl (by simp)
    · exact .inr ⟨hk, (magnitude_lt w).trans_le (Nat.mul_le_mul_left _ (Nat.pow_le_pow_right (by decide) h))⟩

theorem magnitude_lt_of_exp_lt {v w : Word} (h : halfExp v < halfExp w) : magnitude v < magnitude w :=
  calc
    magnitude v < 1024 * 2 ^ halfExp v := magnitude_lt v
    _ ≤ 1024 * 2 ^ (halfExp w - 1) := Nat.mul_le_mul_left _ (Nat.pow_le_pow_right (by decide) (by omega))
    _ ≤ magnitude w := le_magnitude w (by omega)

/-- Sign and magnitude determine a word. -/
theorem eq_of_sign_magnitude_eq {v w : Word} (hsign : halfSign v = halfSign w) (hmag : magnitude v = magnitude w) :
    v = w := by
  have hexp : halfExp v = halfExp w := by
    rcases Nat.lt_trichotomy (halfExp v) (halfExp w) with h | h | h
    · exact absurd hmag (magnitude_lt_of_exp_lt h).ne
    · exact h
    · exact absurd hmag (magnitude_lt_of_exp_lt h).ne'
  refine eq_of_fields_eq hsign hexp ?_
  unfold magnitude at hmag
  rw [hexp] at hmag
  split at hmag
  · exact hmag
  · have := Nat.eq_of_mul_eq_mul_right (by positivity) hmag
    omega

/-! ### The nearest integer -/

/-- A rounded quotient half a unit away from the exact one is even (R93). -/
theorem roundHalfEven_even_of_tie (n d : Nat) (hd : 0 < d)
    (h : 2 * ((roundHalfEven n d * d : Nat) - (n : Nat) : Int).natAbs = d) : roundHalfEven n d % 2 = 0 := by
  have hdm := Nat.div_add_mod n d
  have hlt := Nat.mod_lt n hd
  unfold roundHalfEven at h ⊢
  generalize n / d = q at *
  generalize n % d = r at *
  subst hdm
  have hq : q * d = d * q := Nat.mul_comm _ _
  have hsucc : (q + 1) * d = d * q + d := by ring
  by_cases h1 : 2 * r < d
  · rw [if_pos h1, hq] at h
    omega
  by_cases h2 : d < 2 * r
  · rw [if_neg h1, if_pos h2, hsucc] at h
    omega
  · rw [if_neg h1, if_neg h2]
    omega

/-- No multiple of `d` is nearer to `n` than the rounded one, and where another is as near, the rounded one is even. -/
theorem roundHalfEven_nearest (n d j : Nat) (hd : 0 < d) :
    ((roundHalfEven n d * d : Nat) - (n : Nat) : Int).natAbs ≤ ((j * d : Nat) - (n : Nat) : Int).natAbs ∧
      (((roundHalfEven n d * d : Nat) - (n : Nat) : Int).natAbs = ((j * d : Nat) - (n : Nat) : Int).natAbs →
        j ≠ roundHalfEven n d → roundHalfEven n d % 2 = 0) := by
  obtain ⟨hlow, hhigh⟩ := roundHalfEven_near n d hd
  have htie := roundHalfEven_even_of_tie n d hd
  generalize roundHalfEven n d = r at *
  have e1 : (2 * r + 1) * d = 2 * (r * d) + d := by ring
  have e2 : 2 * r * d = 2 * (r * d) := by ring
  rcases Nat.lt_trichotomy j r with h | rfl | h
  · have hstep : j * d + d ≤ r * d := by
      have := Nat.mul_le_mul_right d (Nat.succ_le_of_lt h)
      rwa [Nat.succ_mul] at this
    exact ⟨by omega, fun heq _ => htie (by omega)⟩
  · exact ⟨le_rfl, fun _ hne => absurd rfl hne⟩
  · have hstep : r * d + d ≤ j * d := by
      have := Nat.mul_le_mul_right d (Nat.succ_le_of_lt h)
      rwa [Nat.succ_mul] at this
    exact ⟨by omega, fun heq _ => htie (by omega)⟩

/-! ### The binade and the rounded significand -/

/-- The exact value lies below the end of its binade. -/
theorem lt_of_binade (num den : Nat) (hden : 0 < den) : num * 2 ^ 24 < 2048 * (den * 2 ^ binade num den) := by
  have h : num * 2 ^ 14 / den < 2 ^ binade num den * 2 := Nat.lt_log2_self
  rw [Nat.div_lt_iff_lt_mul hden] at h
  linarith

/-- The exact value is not below its binade, where that is not the subnormal one. -/
theorem le_of_binade (num den : Nat) (hk : 0 < binade num den) : 1024 * (den * 2 ^ binade num den) ≤ num * 2 ^ 24 := by
  have hne : num * 2 ^ 14 / den ≠ 0 := by
    intro h
    rw [binade, h] at hk
    exact absurd hk (by decide)
  have h : 2 ^ binade num den ≤ num * 2 ^ 14 / den := Nat.log2_self_le hne
  have h' := (Nat.mul_le_mul_right den h).trans (Nat.div_mul_le_self _ _)
  generalize 2 ^ binade num den = p at *
  have e : 1024 * (den * p) = 1024 * (p * den) := by ring
  omega

/-- The significand of `round16`: the exact value in units of its binade's spacing, rounded. -/
def roundedSignificand (num den : Nat) : Nat := roundHalfEven (num * 2 ^ 24) (den * 2 ^ binade num den)

theorem roundedSignificand_le (num den : Nat) (hden : 0 < den) : roundedSignificand num den ≤ 2048 := by
  have hd : 0 < den * 2 ^ binade num den := by positivity
  have hlt := lt_of_binade num den hden
  obtain ⟨-, hhigh⟩ := roundHalfEven_near (num * 2 ^ 24) _ hd
  rw [← roundedSignificand] at hhigh
  generalize den * 2 ^ binade num den = d at *
  have : 2 * roundedSignificand num den * d < 4097 * d := by omega
  have := Nat.lt_of_mul_lt_mul_right this
  omega

theorem le_roundedSignificand (num den : Nat) (hden : 0 < den) (hk : 0 < binade num den) :
    1024 ≤ roundedSignificand num den := by
  have hd : 0 < den * 2 ^ binade num den := by positivity
  have hle := le_of_binade num den hk
  obtain ⟨hlow, -⟩ := roundHalfEven_near (num * 2 ^ 24) _ hd
  rw [← roundedSignificand] at hlow
  generalize den * 2 ^ binade num den = d at *
  have : 2048 * d ≤ (2 * roundedSignificand num den + 1) * d := by omega
  have := Nat.le_of_mul_le_mul_right this hd
  omega

/-- Below 65520 the exponent stays in range. -/
theorem binade_le (num den : Nat) (hfin : num < 65520 * den) : binade num den ≤ 29 := by
  by_contra hk
  have hle := le_of_binade num den (by omega)
  have hpow : 2 ^ 30 ≤ 2 ^ binade num den := Nat.pow_le_pow_right (by decide) (by omega)
  have := Nat.mul_le_mul_left den hpow
  omega

/-- Below 65520 the last binade does not round up to the infinity. -/
theorem roundedSignificand_lt_of_last_binade (num den : Nat) (hden : 0 < den) (hfin : num < 65520 * den)
    (hk : binade num den = 29) : roundedSignificand num den < 2048 := by
  have hd : 0 < den * 2 ^ 29 := by positivity
  have hhigh := (roundHalfEven_near (num * 2 ^ 24) _ hd).2
  rw [← hk, ← roundedSignificand, hk] at hhigh
  have : 2 * roundedSignificand num den * (den * 2 ^ 29) < 4096 * (den * 2 ^ 29) := by omega
  have := Nat.lt_of_mul_lt_mul_right this
  omega

/-! ### The rounded word -/

/-- The word of a sign, a binade and a rounded significand, a carry into the next binade included (R93). -/
def packRounded (neg : Bool) (k n : Nat) : Word :=
  if n = 0 then packHalf neg 0 0
  else if n = 2048 then packHalf neg (k + 2) 0
  else if n < 1024 then packHalf neg 0 n
  else packHalf neg (k + 1) (n - 1024)

theorem round16_eq (neg : Bool) (num den : Nat) :
    round16 neg num den =
      if 65520 * den ≤ num then halfInf neg
      else packRounded neg (binade num den) (roundedSignificand num den) := rfl

/-- What it is for packed fields to hold the significand `n` of the binade `k` under a sign. -/
structure HoldsSignificand (neg : Bool) (k n : Nat) (v : Word) : Prop where
  finite : isFinite v = true
  sign : halfSign v = neg
  magnitude : magnitude v = n * 2 ^ k
  even : n % 2 = 0 → halfFrac v % 2 = 0

theorem holdsSignificand_packHalf (neg : Bool) {k n e f : Nat} (he : e < 31) (hf : f < 1024)
    (hmag : (if e = 0 then f else (1024 + f) * 2 ^ (e - 1)) = n * 2 ^ k) (heven : n % 2 = 0 → f % 2 = 0) :
    HoldsSignificand neg k n (packHalf neg e f) := by
  obtain ⟨hsign, hexp, hfrac⟩ := packHalf_fields neg (show e < 32 by omega) hf
  refine ⟨?_, hsign, ?_, by rwa [hfrac]⟩
  · rw [isFinite, hexp, bne_iff_ne]
    omega
  · rw [Machine.magnitude, hexp, hfrac, hmag]

/-- A significand in range for its binade is packed exactly. -/
theorem packRounded_holdsSignificand (neg : Bool) {k n : Nat} (hk : k ≤ 29) (hn : n ≤ 2048)
    (hlast : k = 29 → n < 2048) (hnormal : 0 < k → 1024 ≤ n) :
    HoldsSignificand neg k n (packRounded neg k n) := by
  unfold packRounded
  split
  · next h => exact holdsSignificand_packHalf neg (by decide) (by decide) (by simp [h]) fun _ => rfl
  split
  · next h =>
    refine holdsSignificand_packHalf neg (by omega) (by decide) ?_ fun _ => rfl
    rw [if_neg (by omega), h, Nat.add_sub_assoc (by decide), Nat.pow_succ]
    ring
  split
  · next h =>
    obtain rfl : k = 0 := by omega
    exact holdsSignificand_packHalf neg (by decide) h (by simp) id
  · refine holdsSignificand_packHalf neg (by omega) (by omega) ?_ (by omega)
    rw [if_neg (by omega), Nat.add_sub_cancel, Nat.add_sub_cancel' (by omega)]

/-- Below 65520 `round16` is the exactly packed rounded significand. -/
theorem round16_holdsSignificand (neg : Bool) (num den : Nat) (hden : 0 < den) (hfin : num < 65520 * den) :
    HoldsSignificand neg (binade num den) (roundedSignificand num den) (round16 neg num den) := by
  rw [round16_eq, if_neg (Nat.not_le.2 hfin)]
  exact packRounded_holdsSignificand neg (binade_le num den hfin) (roundedSignificand_le num den hden)
    (roundedSignificand_lt_of_last_binade num den hden hfin) (le_roundedSignificand num den hden)

/-- The distance of a multiple of the binade's spacing is that of a multiple of the divisor `round16` rounds by. -/
theorem distance_mul_pow (j k num den : Nat) :
    distance (j * 2 ^ k) num den = ((j * (den * 2 ^ k) : Nat) - (num * 2 ^ 24 : Nat) : Int).natAbs := by
  rw [distance, Nat.mul_assoc, Nat.mul_comm (2 ^ k) den]

/-- Among the multiples of the binade's spacing the rounded significand's is nearest, with ties to even (R93). -/
theorem roundedSignificand_nearest (num den j : Nat) (hden : 0 < den) :
    distance (roundedSignificand num den * 2 ^ binade num den) num den ≤ distance (j * 2 ^ binade num den) num den ∧
      (distance (roundedSignificand num den * 2 ^ binade num den) num den = distance (j * 2 ^ binade num den) num den →
        j ≠ roundedSignificand num den → roundedSignificand num den % 2 = 0) := by
  simp only [distance_mul_pow]
  exact roundHalfEven_nearest (num * 2 ^ 24) (den * 2 ^ binade num den) j (by positivity)

/-- A magnitude below the binade is farther than the binade's own start. -/
theorem distance_lt_of_lt_binade (m num den : Nat) (hden : 0 < den) (hk : 0 < binade num den)
    (hm : m < 1024 * 2 ^ binade num den) :
    distance (1024 * 2 ^ binade num den) num den < distance m num den := by
  have hle := le_of_binade num den hk
  have hlt := Nat.mul_lt_mul_of_pos_right hm hden
  unfold distance
  have e : 1024 * 2 ^ binade num den * den = 1024 * (den * 2 ^ binade num den) := by ring
  omega

end Sys2Proof.Machine

namespace Sys2Proof

open Sys2Proof.Machine

/-- Settles O35: with `2^k` the spacing of the exact value's binade, a finite magnitude is a multiple of `2^k`, among which
the rounded significand is nearest with ties to even, or lies below the binade and is farther than its start. -/
theorem roundingIsNearestEven : Obligations.RoundingIsNearestEven := by
  unfold Obligations.RoundingIsNearestEven IsRounded
  intro neg num den hnum hden
  split
  next hinf => rw [round16_eq, if_pos hinf]
  next hfin =>
    have hv := round16_holdsSignificand neg num den hden (Nat.not_le.1 hfin)
    refine ⟨hv.finite, hv.sign, fun w _ => ?_⟩
    have hnearest (j : Nat) := roundedSignificand_nearest num den j hden
    rw [hv.magnitude]
    rcases dvd_magnitude_or_lt w (binade num den) with ⟨j, hj⟩ | ⟨hk, hlt⟩
    · rw [Nat.mul_comm] at hj
      obtain ⟨hle, htie⟩ := hnearest j
      rw [hj]
      refine ⟨hle, fun heq hne => hv.even (htie heq ?_)⟩
      rintro rfl
      exact hne rfl
    · have hstart := (hnearest 1024).1.trans_lt (distance_lt_of_lt_binade _ num den hden hk hlt)
      exact ⟨hstart.le, fun heq => absurd heq hstart.ne⟩

end Sys2Proof
end

section
/-! O36 to O40: the half-precision instructions (41_arithmetic.md R92, R94 to R98). -/

namespace Sys2Proof.Machine

/-! ### The classes of a word -/

theorem isFinite_iff (w : Word) : isFinite w = true ↔ halfExp w ≠ 31 := by simp [isFinite]

theorem isInfinite_iff (w : Word) : isInfinite w = true ↔ halfExp w = 31 ∧ halfFrac w = 0 := by simp [isInfinite]

theorem isNaN_iff (w : Word) : isNaN w = true ↔ halfExp w = 31 ∧ halfFrac w ≠ 0 := by simp [isNaN]

theorem isZero_iff (w : Word) : isZero w = true ↔ halfExp w = 0 ∧ halfFrac w = 0 := by simp [isZero]

/-- Every word is a NaN, an infinity or finite (R92). -/
theorem half_classes (w : Word) : isNaN w = true ∨ isInfinite w = true ∨ isFinite w = true := by
  rw [isNaN_iff, isInfinite_iff, isFinite_iff]
  omega

theorem halfView_of_isNaN {w : Word} (h : isNaN w = true) : halfView w = .nan := (halfView_eq_nan w).2 h

theorem halfView_of_isInfinite {w : Word} (h : isInfinite w = true) : halfView w = .inf (halfSign w) := by
  obtain ⟨hexp, hfrac⟩ := (isInfinite_iff w).1 h
  rw [halfView, if_pos hexp, if_pos hfrac]

theorem halfView_of_isFinite {w : Word} (h : isFinite w = true) : halfView w = .fin (halfSign w) (magnitude w) := by
  rw [halfView, if_neg ((isFinite_iff w).1 h), magnitude]
  split <;> rfl

theorem isFinite_of_isZero {w : Word} (h : isZero w = true) : isFinite w = true := by
  rw [isZero_iff] at h
  rw [isFinite_iff]
  omega

/-- A magnitude is 0 exactly for the two zeros (R92). -/
theorem magnitude_eq_zero_iff (w : Word) : magnitude w = 0 ↔ isZero w = true := by
  rw [isZero_iff]
  unfold magnitude
  split
  · next h => simp [h]
  · next h => simp [h]

theorem magnitude_ne_zero {w : Word} (h : isZero w = false) : magnitude w ≠ 0 := by
  rw [ne_eq, magnitude_eq_zero_iff, h]
  decide

/-- The infinity of a word's sign is the word itself, where it is an infinity. -/
theorem halfInf_halfSign {w : Word} (h : isInfinite w = true) : halfInf (halfSign w) = w := by
  obtain ⟨hexp, hfrac⟩ := (isInfinite_iff w).1 h
  obtain ⟨hsign', hexp', hfrac'⟩ := packHalf_fields (halfSign w) (show 31 < 32 by decide) (show 0 < 1024 by decide)
  exact eq_of_fields_eq hsign' (hexp'.trans hexp.symm) (hfrac'.trans hfrac.symm)

theorem eq_iff_halfSign_eq_of_isInfinite {a b : Word} (ha : isInfinite a = true) (hb : isInfinite b = true) :
    halfSign a = halfSign b ↔ a = b :=
  ⟨fun h => by rw [← halfInf_halfSign ha, h, halfInf_halfSign hb], fun h => h ▸ rfl⟩

/-- The negative zero is the word of negative sign and magnitude 0. -/
theorem eq_negZero_iff (w : Word) : w = 0x8000 ↔ halfSign w = true ∧ magnitude w = 0 := by
  constructor
  · rintro rfl
    decide
  · rintro ⟨hsign, hmag⟩
    exact eq_of_sign_magnitude_eq (hsign.trans (by decide)) (hmag.trans (by decide))

theorem halfZero_eq (neg : Bool) : halfZero neg = if neg = true then 0x8000 else 0x0000 := by
  cases neg <;> decide

/-! ### Values -/

theorem valueUnits_natAbs (w : Word) : (valueUnits w).natAbs = magnitude w := by
  unfold valueUnits
  split <;> simp

theorem valueUnits_eq_zero_iff (w : Word) : valueUnits w = 0 ↔ magnitude w = 0 := by
  rw [← valueUnits_natAbs, Int.natAbs_eq_zero]

/-- A non-zero value is negative exactly by its sign. -/
theorem valueUnits_neg_iff {w : Word} (h : magnitude w ≠ 0) : decide (valueUnits w < 0) = halfSign w := by
  unfold valueUnits
  cases halfSign w
  · simp
  · simp [Nat.pos_of_ne_zero h]

/-- Every finite magnitude lies below the threshold of the infinity (R92, R93). -/
theorem magnitude_lt_threshold {w : Word} (h : isFinite w = true) : magnitude w < 65520 * 2 ^ 24 := by
  have hexp : halfExp w ≤ 30 := by
    have := halfExp_lt w
    have := (isFinite_iff w).1 h
    omega
  have hf := halfFrac_lt w
  unfold magnitude
  split
  · omega
  · calc
      (1024 + halfFrac w) * 2 ^ (halfExp w - 1) ≤ 2047 * 2 ^ 29 :=
        Nat.mul_le_mul (by omega) (Nat.pow_le_pow_right (by decide) (by omega))
      _ < 65520 * 2 ^ 24 := by decide

/-- Rounding the value of a finite word gives the word back: no finite word is nearer to it than itself. -/
theorem round16_magnitude {w : Word} (h : isFinite w = true) (hne : magnitude w ≠ 0) :
    round16 (halfSign w) (magnitude w) (2 ^ 24) = w := by
  have hround := roundingIsNearestEven (halfSign w) (magnitude w) (2 ^ 24) (Nat.pos_of_ne_zero hne) (by decide)
  rw [IsRounded, if_neg (Nat.not_le.2 (magnitude_lt_threshold h))] at hround
  obtain ⟨-, hsign, hnearest⟩ := hround
  obtain ⟨hle, -⟩ := hnearest w h
  refine eq_of_sign_magnitude_eq hsign ?_
  unfold distance at hle
  omega

theorem round16_valueUnits {w : Word} (h : isFinite w = true) (hne : magnitude w ≠ 0) :
    round16 (decide (valueUnits w < 0)) (valueUnits w).natAbs (2 ^ 24) = w := by
  rw [valueUnits_neg_iff hne, valueUnits_natAbs, round16_magnitude h hne]

/-! ### ADDF, class by class -/

section
variable {a b : Word}

theorem halfAdd_of_isNaN (h : isNaN a = true ∨ isNaN b = true) : halfAdd a b = none := by
  unfold halfAdd
  rcases h with ha | hb
  · rw [halfView_of_isNaN ha]
  · rw [halfView_of_isNaN hb]
    cases halfView a <;> rfl

theorem halfAdd_of_opposite_infinities (ha : isInfinite a = true) (hb : isInfinite b = true) (hne : a ≠ b) :
    halfAdd a b = none := by
  have hsign : halfSign a ≠ halfSign b := fun h => hne ((eq_iff_halfSign_eq_of_isInfinite ha hb).1 h)
  simp only [halfAdd, halfView_of_isInfinite ha, halfView_of_isInfinite hb, if_neg hsign]

theorem halfAdd_of_infinite_left (ha : isInfinite a = true) (h : a = b ∨ isFinite b = true) : halfAdd a b = some a := by
  rcases h with rfl | hb
  · simp only [halfAdd, halfView_of_isInfinite ha, if_true, halfInf_halfSign ha]
  · simp only [halfAdd, halfView_of_isInfinite ha, halfView_of_isFinite hb, halfInf_halfSign ha]

theorem halfAdd_of_infinite_right (ha : isFinite a = true) (hb : isInfinite b = true) : halfAdd a b = some b := by
  simp only [halfAdd, halfView_of_isFinite ha, halfView_of_isInfinite hb, halfInf_halfSign hb]

/-- On finite operands ADDF is one of the two zeros or the rounded sum (R95). -/
theorem halfAdd_of_isFinite (ha : isFinite a = true) (hb : isFinite b = true) :
    halfAdd a b =
      if magnitude a = 0 ∧ magnitude b = 0 then some (halfZero (halfSign a && halfSign b))
      else if valueUnits a + valueUnits b = 0 then some (halfZero false)
      else some (round16 (decide (valueUnits a + valueUnits b < 0)) (valueUnits a + valueUnits b).natAbs (2 ^ 24)) := by
  unfold halfAdd
  rw [halfView_of_isFinite ha, halfView_of_isFinite hb]
  rfl

theorem halfAdd_of_sum_eq_zero (ha : isFinite a = true) (hb : isFinite b = true)
    (hsum : valueUnits a + valueUnits b = 0) :
    halfAdd a b = some (if a = 0x8000 ∧ b = 0x8000 then 0x8000 else 0x0000) := by
  rw [halfAdd_of_isFinite ha hb]
  simp only [eq_negZero_iff]
  by_cases hzero : magnitude a = 0 ∧ magnitude b = 0
  · rw [if_pos hzero, halfZero_eq]
    simp [hzero]
  · have hneg : ¬((halfSign a = true ∧ magnitude a = 0) ∧ halfSign b = true ∧ magnitude b = 0) := by
      rintro ⟨⟨-, hza⟩, -, hzb⟩
      exact hzero ⟨hza, hzb⟩
    rw [if_neg hzero, if_pos hsum, if_neg hneg, halfZero_eq, if_neg Bool.false_ne_true]

theorem halfAdd_of_sum_ne_zero (ha : isFinite a = true) (hb : isFinite b = true)
    (hsum : valueUnits a + valueUnits b ≠ 0) :
    halfAdd a b =
      some (round16 (decide (valueUnits a + valueUnits b < 0)) (valueUnits a + valueUnits b).natAbs (2 ^ 24)) := by
  rw [halfAdd_of_isFinite ha hb, if_neg, if_neg hsum]
  rintro ⟨hza, hzb⟩
  rw [(valueUnits_eq_zero_iff a).2 hza, (valueUnits_eq_zero_iff b).2 hzb] at hsum
  exact hsum rfl

theorem halfAdd_zero_right (ha : isFinite a = true) (hne : isZero a = false) (hb : isZero b = true) :
    halfAdd a b = some a := by
  have hzb : valueUnits b = 0 := (valueUnits_eq_zero_iff b).2 ((magnitude_eq_zero_iff b).2 hb)
  have hza : valueUnits a ≠ 0 := mt (valueUnits_eq_zero_iff a).1 (magnitude_ne_zero hne)
  rw [halfAdd_of_sum_ne_zero ha (isFinite_of_isZero hb) (by rwa [hzb, add_zero]), hzb, add_zero,
    round16_valueUnits ha (magnitude_ne_zero hne)]

theorem halfAdd_zero_left (ha : isZero a = true) (hb : isFinite b = true) (hne : isZero b = false) :
    halfAdd a b = some b := by
  have hza : valueUnits a = 0 := (valueUnits_eq_zero_iff a).2 ((magnitude_eq_zero_iff a).2 ha)
  have hzb : valueUnits b ≠ 0 := mt (valueUnits_eq_zero_iff b).1 (magnitude_ne_zero hne)
  rw [halfAdd_of_sum_ne_zero (isFinite_of_isZero ha) hb (by rwa [hza, zero_add]), hza, zero_add,
    round16_valueUnits hb (magnitude_ne_zero hne)]

end

/-! ### Inverting bit 15 -/

section
variable (w : Word)

theorem flip_halfSign : halfSign (w ^^^ 0x8000) = !halfSign w := by
  have hbit : (0x8000 : Word).getLsbD 15 = true := by decide
  rw [halfSign, BitVec.getLsbD_xor, hbit, Bool.xor_true, halfSign]

theorem flip_mod : (w ^^^ 0x8000).toNat % 2 ^ 15 = w.toNat % 2 ^ 15 := by
  rw [BitVec.toNat_xor, Nat.xor_mod_two_pow]
  exact Nat.xor_zero _

theorem flip_halfExp : halfExp (w ^^^ 0x8000) = halfExp w := by
  have h := flip_mod w
  unfold halfExp
  omega

theorem flip_halfFrac : halfFrac (w ^^^ 0x8000) = halfFrac w := by
  have h := flip_mod w
  unfold halfFrac
  omega

theorem flip_isNaN : isNaN (w ^^^ 0x8000) = isNaN w := by rw [isNaN, flip_halfExp, flip_halfFrac, isNaN]

theorem flip_isInfinite : isInfinite (w ^^^ 0x8000) = isInfinite w := by
  rw [isInfinite, flip_halfExp, flip_halfFrac, isInfinite]

theorem flip_isFinite : isFinite (w ^^^ 0x8000) = isFinite w := by rw [isFinite, flip_halfExp, isFinite]

theorem flip_valueUnits : valueUnits (w ^^^ 0x8000) = -valueUnits w := by
  have hmag : magnitude (w ^^^ 0x8000) = magnitude w := by
    rw [magnitude, flip_halfExp, flip_halfFrac, magnitude]
  rw [valueUnits, valueUnits, flip_halfSign, hmag]
  cases halfSign w <;> simp

/-- Of two infinities the one is the other with its sign inverted exactly where they differ. -/
theorem eq_flip_iff {a b : Word} (ha : isInfinite a = true) (hb : isInfinite b = true) :
    a = b ^^^ 0x8000 ↔ a ≠ b := by
  rw [ne_eq, ← eq_iff_halfSign_eq_of_isInfinite ha hb,
    ← eq_iff_halfSign_eq_of_isInfinite ha (by rwa [flip_isInfinite]), flip_halfSign]
  cases halfSign a <;> cases halfSign b <;> decide

theorem flip_eq_negZero_iff : w ^^^ 0x8000 = 0x8000 ↔ w = 0x0000 := BitVec.xor_left_inj (y := 0) 0x8000

end

/-! ### MULF and DIVF, class by class -/

section
variable {a b : Word}

theorem halfMul_of_isNaN (h : isNaN a = true ∨ isNaN b = true) : halfMul a b = none := by
  unfold halfMul
  rcases h with ha | hb
  · rw [halfView_of_isNaN ha]
  · rw [halfView_of_isNaN hb]
    cases halfView a <;> rfl

theorem halfMul_zero_infinite (ha : isZero a = true) (hb : isInfinite b = true) : halfMul a b = none := by
  simp only [halfMul, halfView_of_isFinite (isFinite_of_isZero ha), halfView_of_isInfinite hb,
    if_pos ((magnitude_eq_zero_iff a).2 ha)]

theorem halfMul_infinite_zero (ha : isInfinite a = true) (hb : isZero b = true) : halfMul a b = none := by
  simp only [halfMul, halfView_of_isInfinite ha, halfView_of_isFinite (isFinite_of_isZero hb),
    if_pos ((magnitude_eq_zero_iff b).2 hb)]

theorem halfMul_of_infinite_left (ha : isInfinite a = true) (hnan : isNaN b = false) (hzero : isZero b = false) :
    halfMul a b = some (halfInf (halfSign a ^^ halfSign b)) := by
  rcases half_classes b with hb | hb | hb
  · rw [hb] at hnan
    cases hnan
  · simp only [halfMul, halfView_of_isInfinite ha, halfView_of_isInfinite hb]
  · simp only [halfMul, halfView_of_isInfinite ha, halfView_of_isFinite hb, if_neg (magnitude_ne_zero hzero)]

theorem halfMul_of_infinite_right (hb : isInfinite b = true) (hnan : isNaN a = false) (hzero : isZero a = false) :
    halfMul a b = some (halfInf (halfSign a ^^ halfSign b)) := by
  rcases half_classes a with ha | ha | ha
  · rw [ha] at hnan
    cases hnan
  · simp only [halfMul, halfView_of_isInfinite ha, halfView_of_isInfinite hb]
  · simp only [halfMul, halfView_of_isFinite ha, halfView_of_isInfinite hb, if_neg (magnitude_ne_zero hzero)]

/-- On finite operands MULF is a zero or the rounded product (R97). -/
theorem halfMul_of_isFinite (ha : isFinite a = true) (hb : isFinite b = true) :
    halfMul a b =
      if isZero a = true ∨ isZero b = true then some (halfZero (halfSign a ^^ halfSign b))
      else some (round16 (halfSign a ^^ halfSign b) (magnitude a * magnitude b) (2 ^ 48)) := by
  simp only [halfMul, halfView_of_isFinite ha, halfView_of_isFinite hb, magnitude_eq_zero_iff]

theorem halfDiv_of_isNaN (h : isNaN a = true ∨ isNaN b = true) : halfDiv a b = none := by
  unfold halfDiv
  rcases h with ha | hb
  · rw [halfView_of_isNaN ha]
  · rw [halfView_of_isNaN hb]
    cases halfView a <;> rfl

theorem halfDiv_of_infinities (ha : isInfinite a = true) (hb : isInfinite b = true) : halfDiv a b = none := by
  simp only [halfDiv, halfView_of_isInfinite ha, halfView_of_isInfinite hb]

theorem halfDiv_of_infinite_left (ha : isInfinite a = true) (hb : isFinite b = true) :
    halfDiv a b = some (halfInf (halfSign a ^^ halfSign b)) := by
  simp only [halfDiv, halfView_of_isInfinite ha, halfView_of_isFinite hb]

theorem halfDiv_of_infinite_right (ha : isFinite a = true) (hb : isInfinite b = true) :
    halfDiv a b = some (halfZero (halfSign a ^^ halfSign b)) := by
  simp only [halfDiv, halfView_of_isFinite ha, halfView_of_isInfinite hb]

/-- On finite operands DIVF is a NaN, an infinity, a zero or the rounded quotient, by which operands are zeros (R98). -/
theorem halfDiv_of_isFinite (ha : isFinite a = true) (hb : isFinite b = true) :
    halfDiv a b =
      if isZero b = true then
        if isZero a = true then none else some (halfInf (halfSign a ^^ halfSign b))
      else if isZero a = true then some (halfZero (halfSign a ^^ halfSign b))
      else some (round16 (halfSign a ^^ halfSign b) (magnitude a) (magnitude b)) := by
  simp only [halfDiv, halfView_of_isFinite ha, halfView_of_isFinite hb, magnitude_eq_zero_iff]

end

/-! ### The instructions -/

theorem isNaN_fpResult {op : FpOp} {f : Word → Word → Option Word} {a b : Word} (h : f a b = none) :
    isNaN (fpResult op f a b) = true := by
  obtain ⟨v, hv, -⟩ | ⟨-, hnan⟩ := fpResult_cases op f a b
  · rw [h] at hv
    cases hv
  · exact hnan

theorem fpResult_of_some {op : FpOp} {f : Word → Word → Option Word} {a b v : Word} (h : f a b = some v) :
    fpResult op f a b = v := by
  rw [fpResult, h]

theorem exec_addf_eq (rd rs : Reg) (s : State) :
    exec (.addf rd rs) s = finish .regReg s (aluTwo (fpResult .addf halfAdd) rd rs s) := rfl

theorem exec_subf_eq (rd rs : Reg) (s : State) :
    exec (.subf rd rs) s = finish .regReg s (aluTwo (fpResult .subf halfSub) rd rs s) := rfl

theorem exec_mulf_eq (rd rs : Reg) (s : State) :
    exec (.mulf rd rs) s = finish .regReg s (aluTwo (fpResult .mulf halfMul) rd rs s) := rfl

theorem exec_divf_eq (rd rs : Reg) (s : State) :
    exec (.divf rd rs) s = finish .regReg s (aluTwo (fpResult .divf halfDiv) rd rs s) := rfl

end Sys2Proof.Machine

namespace Sys2Proof

open Sys2Proof.Machine

/-- Settles O36: the two-operand template with the sum, one clause per class of operands. -/
theorem addfResult : Obligations.AddfResult := by
  unfold Obligations.AddfResult
  rintro s rd rs a b rfl rfl
  obtain ⟨t, hexec, hwrote⟩ := finish_aluTwo_wroteReg (fpResult .addf halfAdd) rd rs s
  exact ⟨t, _, (exec_addf_eq rd rs s).trans hexec, hwrote,
    fun h => isNaN_fpResult (halfAdd_of_isNaN h),
    fun ha hb hne => isNaN_fpResult (halfAdd_of_opposite_infinities ha hb hne),
    fun ha h => fpResult_of_some (halfAdd_of_infinite_left ha h),
    fun ha hb => fpResult_of_some (halfAdd_of_infinite_right ha hb),
    fun ha hb => ⟨fun h => fpResult_of_some (halfAdd_of_sum_eq_zero ha hb h),
      fun h => fpResult_of_some (halfAdd_of_sum_ne_zero ha hb h)⟩⟩

/-- Settles O37: SUBF is ADDF with the second sign inverted, so each clause is the one of the sum for that operand. -/
theorem subfResult : Obligations.SubfResult := by
  unfold Obligations.SubfResult
  rintro s rd rs a b rfl rfl
  obtain ⟨t, hexec, hwrote⟩ := finish_aluTwo_wroteReg (fpResult .subf halfSub) rd rs s
  generalize s.reg rd = a at *
  generalize s.reg rs = b at *
  have hvalue : valueUnits a + valueUnits (b ^^^ 0x8000) = valueUnits a - valueUnits b := by
    rw [flip_valueUnits, ← sub_eq_add_neg]
  refine ⟨t, _, (exec_subf_eq rd rs s).trans hexec, hwrote, ?nan, ?equalInfinities, ?infiniteLeft, ?infiniteRight, ?finite⟩
  case nan =>
    intro h
    exact isNaN_fpResult (halfAdd_of_isNaN (by rwa [flip_isNaN]))
  case equalInfinities =>
    rintro ha rfl
    have hne : a ≠ a ^^^ 0x8000 := fun h => (eq_flip_iff ha ha).1 h rfl
    exact isNaN_fpResult (halfAdd_of_opposite_infinities ha (by rwa [flip_isInfinite]) hne)
  case infiniteLeft =>
    intro ha h
    refine fpResult_of_some (halfAdd_of_infinite_left ha ?_)
    rw [flip_isFinite]
    rcases h with hb | ⟨hb, hne⟩
    · exact .inr hb
    · exact .inl ((eq_flip_iff ha hb).2 hne)
  case infiniteRight =>
    intro ha hb
    exact fpResult_of_some (halfAdd_of_infinite_right ha (by rwa [flip_isInfinite]))
  case finite =>
    intro ha hb
    rw [← flip_isFinite] at hb
    simp only [← hvalue, ← flip_eq_negZero_iff b]
    exact ⟨fun h => fpResult_of_some (halfAdd_of_sum_eq_zero ha hb h),
      fun h => fpResult_of_some (halfAdd_of_sum_ne_zero ha hb h)⟩

/-- Settles O38: the two-operand template with the product, one clause per class of operands. -/
theorem mulfResult : Obligations.MulfResult := by
  unfold Obligations.MulfResult
  rintro s rd rs a b rfl rfl
  obtain ⟨t, hexec, hwrote⟩ := finish_aluTwo_wroteReg (fpResult .mulf halfMul) rd rs s
  refine ⟨t, _, (exec_mulf_eq rd rs s).trans hexec, hwrote,
    fun h => isNaN_fpResult (halfMul_of_isNaN h),
    fun ha hb => isNaN_fpResult (halfMul_zero_infinite ha hb),
    fun ha hb => isNaN_fpResult (halfMul_infinite_zero ha hb),
    fun ha hnan hzero => fpResult_of_some (halfMul_of_infinite_left ha hnan hzero),
    fun hb hnan hzero => fpResult_of_some (halfMul_of_infinite_right hb hnan hzero),
    fun ha hb => ⟨fun h => fpResult_of_some ?zero, fun hza hzb => fpResult_of_some ?rounded⟩⟩
  case zero => rw [halfMul_of_isFinite ha hb, if_pos h]
  case rounded => rw [halfMul_of_isFinite ha hb, if_neg (by simp [hza, hzb])]

/-- Settles O39: the two-operand template, which never faults, with the quotient, one clause per class of operands. -/
theorem divfResult : Obligations.DivfResult := by
  unfold Obligations.DivfResult
  rintro s rd rs a b rfl rfl
  obtain ⟨t, hexec, hwrote⟩ := finish_aluTwo_wroteReg (fpResult .divf halfDiv) rd rs s
  refine ⟨t, _, (exec_divf_eq rd rs s).trans hexec, hwrote,
    fun h => isNaN_fpResult (halfDiv_of_isNaN h),
    fun ha hb => isNaN_fpResult ?zeros,
    fun ha hb => isNaN_fpResult (halfDiv_of_infinities ha hb),
    fun ha hb => fpResult_of_some (halfDiv_of_infinite_left ha hb),
    fun ha hb => fpResult_of_some (halfDiv_of_infinite_right ha hb),
    fun ha hza hb => fpResult_of_some ?byZero,
    fun ha hb hzb => fpResult_of_some ?zero,
    fun ha hb hza hzb => fpResult_of_some ?rounded⟩
  case zeros => rw [halfDiv_of_isFinite (isFinite_of_isZero ha) (isFinite_of_isZero hb), if_pos hb, if_pos ha]
  case byZero => rw [halfDiv_of_isFinite ha (isFinite_of_isZero hb), if_pos hb, if_neg (by simp [hza])]
  case zero => rw [halfDiv_of_isFinite (isFinite_of_isZero ha) hb, if_neg (by simp [hzb]), if_pos ha]
  case rounded => rw [halfDiv_of_isFinite ha hb, if_neg (by simp [hzb]), if_neg (by simp [hza])]

/-- Settles O40: the exact sum is the other value, which rounding gives back. -/
theorem addfOfZeroKeepsValue : Obligations.AddfOfZeroKeepsValue := by
  unfold Obligations.AddfOfZeroKeepsValue
  intro s rd rs
  obtain ⟨t, hexec, hwrote⟩ := finish_aluTwo_wroteReg (fpResult .addf halfAdd) rd rs s
  constructor
  · intro hd hne hs
    rw [fpResult_of_some (halfAdd_zero_right hd hne hs)] at hwrote
    exact ⟨t, hexec, hwrote⟩
  · intro hd hs hne
    rw [fpResult_of_some (halfAdd_zero_left hd hs hne)] at hwrote
    exact ⟨t, hexec, hwrote⟩

end Sys2Proof
end
